-- ==== Sys2Proof/Word.lean ====
section
/-! DEFINITION. The one word of the machine: every register, the instruction pointer, the flags register, a memory
cell and both arguments of a memory access are unsigned 8-bit values (00_scope.md R5). -/

namespace Sys2Proof

/-- An 8-bit unsigned value, bit 0 the least significant (00_scope.md R5, R7). -/
abbrev Byte := BitVec 8

end Sys2Proof
end

