-- ==== Sys2Proof/Syntax.lean ====
section
/-! DEFINITION. The instructions as syntax: one constructor per row of spec/opcode_table.json, that is per opcode
and mode (30_encoding.md R54). -/

namespace Sys2Proof

/-- The eight opcodes (30_encoding.md R52). -/
inductive Opcode where
  | jmp
  | movr
  | movm
  | add
  | xor
  | cmp
  | jmpe
  | hlt
  deriving DecidableEq, Repr

/-- The sixteen forms (30_encoding.md R54). The first argument is operand1, the second operand2: a `Nat` where the form
reads it as a register index (an index is a natural number, 00_scope.md R8; only 0 to 5 name a register, and the check is
the executor's, 10_state.md R13), a `Byte` where it is an immediate, a segment or ignored. -/
inductive Instr where
  /-- `jmp rA` (R85) -/
  | jmpNear (r1 : Nat)
  /-- `jmp $seg:rA` (R86) -/
  | jmpFar (r1 : Nat) (seg : Byte)
  /-- `movr rA, rB` (R90) -/
  | movrReg (r1 r2 : Nat)
  /-- `movr rA, $imm` (R91) -/
  | movrImm (r1 : Nat) (imm : Byte)
  /-- `movm rA, [ds:rB]` (R92) -/
  | movmLoad (r1 r2 : Nat)
  /-- `movm [ds:rA], rB` (R93) -/
  | movmStore (r1 r2 : Nat)
  /-- `add rA, rB` (R95) -/
  | addReg (r1 r2 : Nat)
  /-- `add rA, $imm` (R96) -/
  | addImm (r1 : Nat) (imm : Byte)
  /-- `xor rA, rB` (R97) -/
  | xorReg (r1 r2 : Nat)
  /-- `xor rA, $imm` (R98) -/
  | xorImm (r1 : Nat) (imm : Byte)
  /-- `cmp rA, rB` (R99) -/
  | cmpReg (r1 r2 : Nat)
  /-- `cmp rA, $imm` (R100) -/
  | cmpImm (r1 : Nat) (imm : Byte)
  /-- `jmpe rA` (R87) -/
  | jmpeNear (r1 : Nat)
  /-- `jmpe rB:rA` (R88) -/
  | jmpeFar (r1 r2 : Nat)
  /-- `hlt` (R103); operand1 is ignored, and kept so that encoding gives the word back (log entry 16) -/
  | hlt (ignored1 : Nat)
  /-- `hlt.2` (R104); both operands are ignored, and kept so that encoding gives the word back (log entry 16) -/
  | hlt2 (ignored1 : Nat) (ignored2 : Byte)
  deriving DecidableEq, Repr

end Sys2Proof
end

