-- ==== Sys2Proof/WellFormed.lean ====
section
/-! DEFINITION. Which instructions have an encoding: each register index fits its field (30_encoding.md R51, R54).
An index of 6 or more that fits is well-formed: it decodes, and faults in execute (30_encoding.md R59). -/

namespace Sys2Proof

/-- operand1 is a field of 4 bits (30_encoding.md R51). -/
def fitsOperand1 (i : Nat) : Bool := i < 16

/-- operand2 is the whole of byte 2 (30_encoding.md R51). -/
def fitsOperand2 (i : Nat) : Bool := i < 256

/-- Every register index of the instruction fits the field that holds it. -/
def Instr.wellFormed : Instr → Bool
  | .jmpNear r1 => fitsOperand1 r1
  | .jmpFar r1 _ => fitsOperand1 r1
  | .movrReg r1 r2 => fitsOperand1 r1 && fitsOperand2 r2
  | .movrImm r1 _ => fitsOperand1 r1
  | .movmLoad r1 r2 => fitsOperand1 r1 && fitsOperand2 r2
  | .movmStore r1 r2 => fitsOperand1 r1 && fitsOperand2 r2
  | .addReg r1 r2 => fitsOperand1 r1 && fitsOperand2 r2
  | .addImm r1 _ => fitsOperand1 r1
  | .xorReg r1 r2 => fitsOperand1 r1 && fitsOperand2 r2
  | .xorImm r1 _ => fitsOperand1 r1
  | .cmpReg r1 r2 => fitsOperand1 r1 && fitsOperand2 r2
  | .cmpImm r1 _ => fitsOperand1 r1
  | .jmpeNear r1 => fitsOperand1 r1
  | .jmpeFar r1 r2 => fitsOperand1 r1 && fitsOperand2 r2
  | .hlt ignored1 => fitsOperand1 ignored1
  | .hlt2 ignored1 _ => fitsOperand1 ignored1

end Sys2Proof
end

