-- ==== Sys2Proof/Decode.lean ====
section
/-! DEFINITION. Decoding and encoding, from 30_encoding.md: the fields of byte 1 (R51), the opcode numbers (R52), the
meaning of the operands per form (R54), the length (R55), and decode as a total function (R61). -/

namespace Sys2Proof

/-- `opcode = byte1 >> 5`, 0 to 7 (R51). -/
def opcodeField (b1 : Byte) : Nat := (b1 >>> 5).toNat

/-- `mode = (byte1 & 0x10) >> 4`, as a truth value (R51). -/
def modeField (b1 : Byte) : Bool := ((b1 &&& 0x10#8) >>> 4) == 1#8

/-- `operand1 = byte1 & 0x0F`, 0 to 15 (R51). -/
def operand1Field (b1 : Byte) : Nat := (b1 &&& 0x0F#8).toNat

/-- The number of an opcode (R52; the numbers other than movr's and hlt's are the spec's decision D1, UNVERIFIED, unsafe:
log entry 8). -/
def Opcode.number : Opcode → Nat
  | .jmp => 0
  | .movr => 1
  | .movm => 2
  | .add => 3
  | .xor => 4
  | .cmp => 5
  | .jmpe => 6
  | .hlt => 7

/-- The opcode of a number (R52); none outside 0 to 7, which the source calls `InvalidOpcode` (60_exceptions.md R112). -/
def Opcode.ofNumber : Nat → Option Opcode
  | 0 => some .jmp
  | 1 => some .movr
  | 2 => some .movm
  | 3 => some .add
  | 4 => some .xor
  | 5 => some .cmp
  | 6 => some .jmpe
  | 7 => some .hlt
  | _ => none

/-- Length rule (R55): one byte for jmp, jmpe and hlt in mode 0, two bytes otherwise. -/
def lengthOf (op : Opcode) (mode : Bool) : Nat :=
  if (op = .jmp ∨ op = .jmpe ∨ op = .hlt) ∧ mode = false then 1 else 2

/-- The instruction of an opcode and a mode with its operands read as R54 says; a one-byte form drops byte 2 (R56). -/
def assemble (op : Opcode) (mode : Bool) (operand1 : Nat) (operand2 : Byte) : Instr :=
  match op, mode with
  | .jmp, false => .jmpNear operand1
  | .jmp, true => .jmpFar operand1 operand2
  | .movr, false => .movrReg operand1 operand2.toNat
  | .movr, true => .movrImm operand1 operand2
  | .movm, false => .movmLoad operand1 operand2.toNat
  | .movm, true => .movmStore operand1 operand2.toNat
  | .add, false => .addReg operand1 operand2.toNat
  | .add, true => .addImm operand1 operand2
  | .xor, false => .xorReg operand1 operand2.toNat
  | .xor, true => .xorImm operand1 operand2
  | .cmp, false => .cmpReg operand1 operand2.toNat
  | .cmp, true => .cmpImm operand1 operand2
  | .jmpe, false => .jmpeNear operand1
  | .jmpe, true => .jmpeFar operand1 operand2.toNat
  | .hlt, false => .hlt operand1
  | .hlt, true => .hlt2 operand1 operand2

/-- Why bytes are not an instruction. -/
inductive DecodeReject where
  /-- The opcode number is outside 0 to 7. No byte gives one (R58, 60_exceptions.md R112): log entry 7, safe. -/
  | invalidOpcode
  /-- There is no byte at all. Only a list of bytes can lack one; a fetch always brings two (R56). -/
  | noByte1
  /-- Byte 1 is a two-byte form's and there is no byte 2. Only a list of bytes can lack one. -/
  | noByte2
  deriving DecidableEq, Repr

/-- `decode(b1, b2)` (R61), on the two bytes that every fetch brings (R56). It reads no state. -/
def decode (b1 b2 : Byte) : Except DecodeReject Instr :=
  match Opcode.ofNumber (opcodeField b1) with
  | some op => .ok (assemble op (modeField b1) (operand1Field b1) b2)
  | none => .error .invalidOpcode

/-- The opcode of an instruction (R54). -/
def Instr.opcode : Instr → Opcode
  | .jmpNear _ => .jmp
  | .jmpFar _ _ => .jmp
  | .movrReg _ _ => .movr
  | .movrImm _ _ => .movr
  | .movmLoad _ _ => .movm
  | .movmStore _ _ => .movm
  | .addReg _ _ => .add
  | .addImm _ _ => .add
  | .xorReg _ _ => .xor
  | .xorImm _ _ => .xor
  | .cmpReg _ _ => .cmp
  | .cmpImm _ _ => .cmp
  | .jmpeNear _ => .jmpe
  | .jmpeFar _ _ => .jmpe
  | .hlt _ => .hlt
  | .hlt2 _ _ => .hlt

/-- The mode bit of an instruction (R53, R54). -/
def Instr.mode : Instr → Bool
  | .jmpNear _ => false
  | .jmpFar _ _ => true
  | .movrReg _ _ => false
  | .movrImm _ _ => true
  | .movmLoad _ _ => false
  | .movmStore _ _ => true
  | .addReg _ _ => false
  | .addImm _ _ => true
  | .xorReg _ _ => false
  | .xorImm _ _ => true
  | .cmpReg _ _ => false
  | .cmpImm _ _ => true
  | .jmpeNear _ => false
  | .jmpeFar _ _ => true
  | .hlt _ => false
  | .hlt2 _ _ => true

/-- operand1 of an instruction (R54), the ignored one of hlt with it. -/
def Instr.operand1 : Instr → Nat
  | .jmpNear r1 => r1
  | .jmpFar r1 _ => r1
  | .movrReg r1 _ => r1
  | .movrImm r1 _ => r1
  | .movmLoad r1 _ => r1
  | .movmStore r1 _ => r1
  | .addReg r1 _ => r1
  | .addImm r1 _ => r1
  | .xorReg r1 _ => r1
  | .xorImm r1 _ => r1
  | .cmpReg r1 _ => r1
  | .cmpImm r1 _ => r1
  | .jmpeNear r1 => r1
  | .jmpeFar r1 _ => r1
  | .hlt ignored1 => ignored1
  | .hlt2 ignored1 _ => ignored1

/-- Byte 2 of an instruction (R54); none for a one-byte form. -/
def Instr.operand2 : Instr → Option Byte
  | .jmpNear _ => none
  | .jmpFar _ seg => some seg
  | .movrReg _ r2 => some (BitVec.ofNat 8 r2)
  | .movrImm _ imm => some imm
  | .movmLoad _ r2 => some (BitVec.ofNat 8 r2)
  | .movmStore _ r2 => some (BitVec.ofNat 8 r2)
  | .addReg _ r2 => some (BitVec.ofNat 8 r2)
  | .addImm _ imm => some imm
  | .xorReg _ r2 => some (BitVec.ofNat 8 r2)
  | .xorImm _ imm => some imm
  | .cmpReg _ r2 => some (BitVec.ofNat 8 r2)
  | .cmpImm _ imm => some imm
  | .jmpeNear _ => none
  | .jmpeFar _ r2 => some (BitVec.ofNat 8 r2)
  | .hlt _ => none
  | .hlt2 _ ignored2 => some ignored2

/-- The number of bytes of an instruction (R55): what the decoder advances `ip` by. -/
def Instr.length (i : Instr) : Nat := lengthOf i.opcode i.mode

/-- Decoding a list of bytes: the instruction and the bytes after it. Byte 2 of a one-byte form is not part of the
instruction (R56), so it stays in the list, and may be absent. -/
def decodeBytes : List Byte → Except DecodeReject (Instr × List Byte)
  | [] => .error .noByte1
  | [b1] =>
    match decode b1 0#8 with
    | .ok i => if i.length = 1 then .ok (i, []) else .error .noByte2
    | .error r => .error r
  | b1 :: b2 :: rest =>
    match decode b1 b2 with
    | .ok i => if i.length = 1 then .ok (i, b2 :: rest) else .ok (i, rest)
    | .error r => .error r

/-- Byte 1: opcode in bits 7 to 5, mode in bit 4, operand1 in bits 3 to 0 (R50, R51). -/
def encodeByte1 (op : Opcode) (mode : Bool) (operand1 : Nat) : Byte :=
  BitVec.ofNat 8 (op.number * 32 + (if mode then 16 else 0) + operand1)

/-- The bytes of an instruction, byte 1 first (R50). -/
def encode (i : Instr) : List Byte :=
  encodeByte1 i.opcode i.mode i.operand1 :: i.operand2.toList

/-- The decoder on an opcode-table word: byte 1 in bits 7 to 0, byte 2 in bits 15 to 8, every bit from `nbits` up 0. -/
def decodeTableWord (nbits w : Nat) : Option Instr :=
  match decode (BitVec.ofNat 8 (w % 2 ^ nbits)) (BitVec.ofNat 8 (w % 2 ^ nbits / 256)) with
  | .ok i => some i
  | .error _ => none

end Sys2Proof
end

