-- ==== Sys2Proof/Config.lean ====
section
/-! DEFINITION. What an implementation fixes (00_scope.md R6): the size of the backing store. Its initial contents,
the other parameter of R6, are the memory a run starts from. The spec leaves no value undefined, so there is no free
value here. -/

namespace Sys2Proof

/-- The parameters of one machine that no step changes. -/
structure Config where
  /-- `MEM_SIZE`: valid flat addresses are 0 to memSize - 1 (00_scope.md R6); no constraint. -/
  memSize : Nat
  deriving DecidableEq, Repr

/-- The size `State.reset` takes: the smallest at which no access is out of bounds (00_scope.md R6), the one the
spec's test vectors use. DESIGN CHOICE, unsafe for claims about `State.reset`: log entry 1. -/
def Config.standard : Config := { memSize := 4336 }

end Sys2Proof
end

