-- ==== Sys2Proof/Machine/State.lean ====
section
/-! DEFINITION. The whole state of the machine (10_state.md R10 to R24): six registers in one indexed space, the
instruction pointer, the flags register, the run status and the byte store. Nothing else is state (R20, R21). -/

namespace Sys2Proof.Machine

/-- The registers of the indexed space (10_state.md R10): r0 to r3 are indices 0 to 3, cs is 4, ds is 5. -/
inductive Reg where
  | r0
  | r1
  | r2
  | r3
  | cs
  | ds
  deriving DecidableEq, Repr

/-- The values of the six registers (10_state.md R10, R11, R12). -/
structure RegFile where
  r0 : Byte
  r1 : Byte
  r2 : Byte
  r3 : Byte
  cs : Byte
  ds : Byte
  deriving DecidableEq, Repr

/-- The termination reasons (60_exceptions.md R110): a closed set of five; only `programHalted` carries a value. -/
inductive Reason where
  /-- A register index outside 0 to 5 was accessed (R111). -/
  | invalidRegister
  /-- An opcode outside 0 to 7 (R112): unreachable, kept for completeness (log entry 7). -/
  | invalidOpcode
  /-- The sum of an `add` exceeds 0xFF (R113). -/
  | arithmeticOverflow
  /-- A flat address at or beyond MEM_SIZE was accessed (R114). -/
  | outOfBounds
  /-- `hlt` was executed; carries the flags byte (R115). Not a failure. -/
  | programHalted (flags : Byte)
  deriving DecidableEq, Repr

/-- The run status (10_state.md R19). -/
inductive Status where
  | running
  | terminated (reason : Reason)
  deriving DecidableEq, Repr

/-- The byte store as its listed cells: (flat address, byte), in the canonical form of `Memory.wf`. -/
abbrev Memory := List Host.Cell

/-- The state of the machine. -/
structure State where
  /-- The parameters of the machine, which no step changes (00_scope.md R6; log entry 3). -/
  cfg : Config
  /-- r0 to r3, cs, ds (10_state.md R10). -/
  regs : RegFile
  /-- The instruction pointer: the offset in segment cs of the next instruction (10_state.md R15). -/
  ip : Byte
  /-- The flags register, one of 0x00, 0xFF, 0x01 as a whole byte (10_state.md R17). -/
  flags : Byte
  /-- Running or Terminated(reason) (10_state.md R19). -/
  status : Status
  /-- The backing store (20_memory.md R36). -/
  mem : Memory
  deriving DecidableEq, Repr

/-- Why the model would stop outside the spec's own terms: never. Every exceptional event of the spec is a
termination reason, which a step takes as a next state (60_exceptions.md R110, R116; log entry 2), so nobody raises a
fault and there is no constructor (safe). -/
inductive Fault where
  deriving DecidableEq, Repr

/-- What the model gives no meaning to. -/
inductive Refusal where
  /-- An instruction without a meaning yet; raised by an arm of `exec` only, and no arm of it does (safe). -/
  | notModelled (mnemonic : String)
  deriving DecidableEq, Repr

/-- The state in which a run starts, for a size and contents of the store (10_state.md R24, 70_reset_and_hazards.md R131):
the registers at their reset values, the memory as the loader left it (`MEM_INIT`, 00_scope.md R6). -/
def State.resetWith (cfg : Config) (mem : Memory) : State :=
  { cfg := cfg
    regs := { r0 := 0x00#8, r1 := 0x00#8, r2 := 0x00#8, r3 := 0x00#8, cs := 0x00#8, ds := 0x10#8 }
    ip := 0x00#8
    flags := 0x00#8
    status := .running
    mem := mem }

/-- The machine right after reset, with no program loaded. Its size and contents of the store are parameters of the spec
that one state has to fix: DESIGN CHOICE, unsafe, log entry 1. -/
def State.reset : State := State.resetWith Config.standard []

end Sys2Proof.Machine
end

