-- ==== Sys2Proof/Machine/Memory.lean ====
section
/-! DEFINITION. The byte store (20_memory.md R30, R36) as a list of cells in one canonical form, keyed by flat
address (R32). -/

namespace Sys2Proof.Machine

/-- What a cell that is not listed holds (DESIGN CHOICE, safe: every contents of the store has a list; log entry 4). -/
def unlistedByte : Byte := 0x00#8

/-- The byte a cell holds. -/
def Memory.read : Memory → Nat → Byte
  | [], _ => unlistedByte
  | (a, v) :: rest, x => if a = x then v else Memory.read rest x

/-- The store with one cell changed, in canonical form: a cell that would hold `unlistedByte` is not listed. -/
def Memory.write : Memory → Nat → Byte → Memory
  | [], x, v => if v = unlistedByte then [] else [(x, v)]
  | (a, w) :: rest, x, v =>
    if a = x then
      if v = unlistedByte then rest else (x, v) :: rest
    else if x < a then
      if v = unlistedByte then (a, w) :: rest else (x, v) :: (a, w) :: rest
    else (a, w) :: Memory.write rest x v

/-- Addresses strictly rising from `low` on, and no cell listed that holds `unlistedByte`. -/
def Memory.wfFrom (low : Nat) : Memory → Bool
  | [] => true
  | (a, v) :: rest => decide (low ≤ a) && decide (v ≠ unlistedByte) && Memory.wfFrom (a + 1) rest

/-- The canonical form: equal stores are equal lists. -/
def Memory.wf (m : Memory) : Bool := Memory.wfFrom 0 m

end Sys2Proof.Machine
end

