-- ==== Sys2Proof/Machine/Ops.lean ====
section
/-! DEFINITION. The named operations over registers and memory, the two fetch reads, the advance of `ip`, taking a
termination reason, reset, and loading. -/

namespace Sys2Proof.Machine

/-- What executing an instruction, or one step, answers. -/
abbrev Result := Host.Outcome State Fault Refusal

/-! ### Registers (10_state.md R10 to R14) -/

/-- The register of an index; none for an index outside 0 to 5 (10_state.md R10, R13). -/
def Reg.ofIndex : Nat → Option Reg
  | 0 => some .r0
  | 1 => some .r1
  | 2 => some .r2
  | 3 => some .r3
  | 4 => some .cs
  | 5 => some .ds
  | _ => none

/-- The value of a register. -/
def RegFile.get (f : RegFile) : Reg → Byte
  | .r0 => f.r0
  | .r1 => f.r1
  | .r2 => f.r2
  | .r3 => f.r3
  | .cs => f.cs
  | .ds => f.ds

/-- The registers with one of them written; none is hardwired (10_state.md R11). -/
def RegFile.set (f : RegFile) (r : Reg) (v : Byte) : RegFile :=
  match r with
  | .r0 => { f with r0 := v }
  | .r1 => { f with r1 := v }
  | .r2 => { f with r2 := v }
  | .r3 => { f with r3 := v }
  | .cs => { f with cs := v }
  | .ds => { f with ds := v }

/-- `x[i]` of a valid index (00_scope.md R8). -/
def State.reg (s : State) (r : Reg) : Byte := s.regs.get r

/-- `x[i] <- v` of a valid index (00_scope.md R8, 10_state.md R14). -/
def State.setReg (s : State) (r : Reg) (v : Byte) : State := { s with regs := s.regs.set r v }

/-- `ip <- v` (00_scope.md R8). -/
def State.setIp (s : State) (v : Byte) : State := { s with ip := v }

/-- `ip <- (ip + len) mod 256` (10_state.md R16, 40_execution_cycle.md R73; the reduction is the spec's decision D4,
UNVERIFIED, unsafe: log entry 9). -/
def State.advanceIp (s : State) (len : Nat) : State := { s with ip := s.ip + BitVec.ofNat 8 len }

/-! ### Memory (20_memory.md R30 to R36) -/

/-- `Translate(seg, off) = seg * 16 + off` on naturals, not truncated (20_memory.md R31). -/
def translateAddr (seg off : Byte) : Nat := seg.toNat * 16 + off.toNat

/-- `MemRead(addr, 1)`; none is `OutOfBounds` (20_memory.md R35). -/
def readCell (s : State) (a : Nat) : Option Byte :=
  if a < s.cfg.memSize then some (Memory.read s.mem a) else none

/-- `MemWrite(addr, 1, v)`; none is `OutOfBounds`, and then no cell changes (20_memory.md R34, R35). -/
def writeCell (s : State) (a : Nat) (v : Byte) : Option State :=
  if a < s.cfg.memSize then some { s with mem := Memory.write s.mem a v } else none

/-- `MemReadSeg(seg, off)`: the port's read (20_memory.md R33). -/
def memReadSeg (s : State) (seg off : Byte) : Option Byte := readCell s (translateAddr seg off)

/-- `MemWriteSeg(seg, off, v)`: the port's write (20_memory.md R34). -/
def memWriteSeg (s : State) (seg off : Byte) (v : Byte) : Option State := writeCell s (translateAddr seg off) v

/-! ### Fetch (40_execution_cycle.md R71) -/

/-- The flat address of byte 1 of the next instruction. -/
def fetchAddr1 (s : State) : Nat := translateAddr (s.reg .cs) s.ip

/-- The flat address of byte 2: offset `(ip + 1) mod 256` of the same segment (R71; the reduction is the spec's decision
D5, UNVERIFIED, unsafe: log entry 9). -/
def fetchAddr2 (s : State) : Nat := translateAddr (s.reg .cs) (s.ip + 1#8)

/-- The two fetch reads, both made whatever byte 1 is; none is `OutOfBounds` (R71). -/
def fetch (s : State) : Option (Byte × Byte) :=
  match readCell s (fetchAddr1 s) with
  | none => none
  | some b1 =>
    match readCell s (fetchAddr2 s) with
    | none => none
    | some b2 => some (b1, b2)

/-! ### Termination and reset -/

/-- `raise R`: `status <- Terminated(R)`, and nothing else (60_exceptions.md R116, R119). The one way an exception is
taken. There is no return from it: termination is final (R122), and only reset starts a new run (`State.applyReset`). -/
def raise (r : Reason) (s : State) : Result := .next { s with status := .terminated r }

/-- The reset event on a machine in any state: the registers, `ip`, `flags` and `status` at their reset values, memory
untouched (70_reset_and_hazards.md R130, R131; that it may be applied again is the spec's decision D16: log entry 15). -/
def State.applyReset (s : State) : State := State.resetWith s.cfg s.mem

/-! ### Loading, before a run (70_reset_and_hazards.md R133, R134; log entry 6) -/

/-- The loader writes one cell; a cell beyond the store does not exist and the byte is dropped. -/
def State.loadCell (s : State) (a : Nat) (v : Byte) : State :=
  if a < s.cfg.memSize then { s with mem := Memory.write s.mem a v } else s

/-- A flat byte sequence loaded from a flat address on (R133). -/
def State.loadImage (s : State) (a : Nat) : List Byte → State
  | [] => s
  | v :: rest => (s.loadCell a v).loadImage (a + 1) rest

/-- Two bytes stored where the next fetch reads them, in a machine that runs. -/
def State.placeFetchBytes (s : State) (b1 b2 : Byte) : State :=
  { (s.loadCell (fetchAddr1 s) b1).loadCell (fetchAddr2 s) b2 with status := .running }

end Sys2Proof.Machine
end

