-- ==== Sys2Proof/Machine/Flags.lean ====
section
/-! DEFINITION. The flags register (10_state.md R17): one byte that is one of three codes, computed by `compare` alone
(43_alu_compare.md R101). -/

namespace Sys2Proof.Machine

/-- The code of Equal (R17). -/
def flagEqual : Byte := 0x00#8

/-- The code of Less (R17). -/
def flagLess : Byte := 0xFF#8

/-- The code of Greater (R17). -/
def flagGreater : Byte := 0x01#8

/-- `compare(a, b)`, unsigned (43_alu_compare.md R101). -/
def compareBytes (a b : Byte) : Byte :=
  if a.toNat = b.toNat then flagEqual
  else if a.toNat < b.toNat then flagLess
  else flagGreater

/-- `flags <- v`. -/
def State.setFlags (s : State) (v : Byte) : State := { s with flags := v }

/-- The condition of jmpe: `flags = 0x00` exactly (41_control_transfer.md R87). -/
def State.flagsEqual (s : State) : Bool := s.flags == flagEqual

end Sys2Proof.Machine
end

