-- ==== Sys2Proof/Machine/Operands.lean ====
section
/-! DEFINITION. The operand forms (42_data_movement.md R94) in the three stages of 40_execution_cycle.md R77: validate
every register index, then read and compute, then write. Each takes what is done next as an argument; where it raises,
nothing has been written. -/

namespace Sys2Proof.Machine

/-- Validate one register index (10_state.md R13). -/
def withReg (i : Nat) (s : State) (next : Reg → Result) : Result :=
  match Reg.ofIndex i with
  | some r => next r
  | none => raise .invalidRegister s

/-- Validate two register indices before anything is read or written (R77, the spec's decision D6: log entry 10). -/
def withRegs (i j : Nat) (s : State) (next : Reg → Reg → Result) : Result :=
  withReg i s fun a => withReg j s fun b => next a b

/-- Read the byte at `[ds:off]` (42_data_movement.md R92, R94). -/
def withLoad (off : Byte) (s : State) (next : Byte → Result) : Result :=
  match memReadSeg s (s.reg .ds) off with
  | some v => next v
  | none => raise .outOfBounds s

/-- Write the byte at `[ds:off]` (42_data_movement.md R93, R94). -/
def storeData (off v : Byte) (s : State) : Result :=
  match memWriteSeg s (s.reg .ds) off v with
  | some t => .next t
  | none => raise .outOfBounds s

/-- The flat address that `storeData off` and `withLoad off` access (42_data_movement.md R92, R93). -/
def dataAddr (s : State) (off : Byte) : Nat := translateAddr (s.reg .ds) off

/-- The sum of two bytes as a natural number; none when it exceeds 0xFF (43_alu_compare.md R95, R96, R102). -/
def addChecked (a b : Byte) : Option Byte :=
  if a.toNat + b.toNat > 0xFF then none else some (BitVec.ofNat 8 (a.toNat + b.toNat))

/-- Add, or raise `ArithmeticOverflow` before the destination is written (R95, R96; the spec's decision D14: log
entry 12). -/
def withSum (a b : Byte) (s : State) (next : Byte → Result) : Result :=
  match addChecked a b with
  | some v => next v
  | none => raise .arithmeticOverflow s

end Sys2Proof.Machine
end

