-- ==== Sys2Proof/Machine/Alu.lean ====
section
/-! DEFINITION. Arithmetic, logic and compare (43_alu_compare.md). `add` raises on overflow and never wraps; `add` and
`xor` write no flags; `cmp` writes nothing but flags. -/

namespace Sys2Proof.Machine

/-- `add rA, rB` (R95). -/
def execAddReg (r1 r2 : Nat) (s : State) : Result :=
  withRegs r1 r2 s fun a b => withSum (s.reg a) (s.reg b) s fun v => .next (s.setReg a v)

/-- `add rA, $imm` (R96): the immediate is unsigned. -/
def execAddImm (r1 : Nat) (imm : Byte) (s : State) : Result :=
  withReg r1 s fun a => withSum (s.reg a) imm s fun v => .next (s.setReg a v)

/-- `xor rA, rB` (R97). -/
def execXorReg (r1 r2 : Nat) (s : State) : Result :=
  withRegs r1 r2 s fun a b => .next (s.setReg a (s.reg a ^^^ s.reg b))

/-- `xor rA, $imm` (R98). -/
def execXorImm (r1 : Nat) (imm : Byte) (s : State) : Result :=
  withReg r1 s fun a => .next (s.setReg a (s.reg a ^^^ imm))

/-- `cmp rA, rB` (R99). -/
def execCmpReg (r1 r2 : Nat) (s : State) : Result :=
  withRegs r1 r2 s fun a b => .next (s.setFlags (compareBytes (s.reg a) (s.reg b)))

/-- `cmp rA, $imm` (R100). -/
def execCmpImm (r1 : Nat) (imm : Byte) (s : State) : Result :=
  withReg r1 s fun a => .next (s.setFlags (compareBytes (s.reg a) imm))

end Sys2Proof.Machine
end

