-- ==== Sys2Proof/Machine/Control.lean ====
section
/-! DEFINITION. Control transfer (41_control_transfer.md). In every meaning `ip` has already been advanced past the
instruction (40_execution_cycle.md R73). Targets are absolute within the code segment. -/

namespace Sys2Proof.Machine

/-- `jmp rA` (R85): `ip <- x[r1]`. -/
def execJmpNear (r1 : Nat) (s : State) : Result :=
  withReg r1 s fun a => .next (s.setIp (s.reg a))

/-- `jmp $seg:rA` (R86): `x[r1]` is read before `cs` is written; the segment is not checked (the spec's decision D20,
UNVERIFIED, unsafe: log entry 14). -/
def execJmpFar (r1 : Nat) (seg : Byte) (s : State) : Result :=
  withReg r1 s fun a => .next ((s.setIp (s.reg a)).setReg .cs seg)

/-- `jmpe rA` (R87): as `jmp rA` when flags is Equal; otherwise no register is accessed (the spec's decision D8,
UNVERIFIED, unsafe: log entry 11). -/
def execJmpeNear (r1 : Nat) (s : State) : Result :=
  if s.flagsEqual then withReg r1 s fun a => .next (s.setIp (s.reg a)) else .next s

/-- `jmpe rB:rA` (R88): offset and segment both from registers, both read before either is written; nothing when flags
is not Equal (the spec's decision D8, UNVERIFIED, unsafe: log entry 11). -/
def execJmpeFar (r1 r2 : Nat) (s : State) : Result :=
  if s.flagsEqual then withRegs r1 r2 s fun a b => .next ((s.setIp (s.reg a)).setReg .cs (s.reg b))
  else .next s

end Sys2Proof.Machine
end

