-- ==== Sys2Proof/Machine/Data.lean ====
section
/-! DEFINITION. Data movement (42_data_movement.md). Any of the six registers may be source or destination. -/

namespace Sys2Proof.Machine

/-- `movr rA, rB` (R90). -/
def execMovrReg (r1 r2 : Nat) (s : State) : Result :=
  withRegs r1 r2 s fun a b => .next (s.setReg a (s.reg b))

/-- `movr rA, $imm` (R91). -/
def execMovrImm (r1 : Nat) (imm : Byte) (s : State) : Result :=
  withReg r1 s fun a => .next (s.setReg a imm)

/-- `movm rA, [ds:rB]` (R92): indices are checked before the address. -/
def execMovmLoad (r1 r2 : Nat) (s : State) : Result :=
  withRegs r1 r2 s fun a b => withLoad (s.reg b) s fun v => .next (s.setReg a v)

/-- `movm [ds:rA], rB` (R93): the first register gives the offset, the second the value. -/
def execMovmStore (r1 r2 : Nat) (s : State) : Result :=
  withRegs r1 r2 s fun a b => storeData (s.reg a) (s.reg b) s

end Sys2Proof.Machine
end

