-- ==== Sys2Proof/Machine/Halt.lean ====
section
/-! DEFINITION. The system instruction (44_halt.md). `ip` has already been advanced by 1 or 2. -/

namespace Sys2Proof.Machine

/-- The effect both forms of hlt share: `raise ProgramHalted(flags)`. -/
def halt (s : State) : Result := raise (.programHalted s.flags) s

/-- `hlt` (R103): operand1 is ignored (the spec's decision D9, UNVERIFIED, unsafe: log entry 11). -/
def execHlt (_ignored1 : Nat) (s : State) : Result := halt s

/-- `hlt.2` (R104): both operands are ignored (the spec's decision D9, UNVERIFIED, unsafe: log entry 11). -/
def execHlt2 (_ignored1 : Nat) (_ignored2 : Byte) (s : State) : Result := halt s

end Sys2Proof.Machine
end

