-- ==== Sys2Proof/Machine/Dispatch.lean ====
section
/-! DEFINITION. The executor of each form (40_execution_cycle.md R74). It runs with `ip` already advanced and does not
look at status: `step` calls it only while the machine is running (DESIGN CHOICE, safe: log entry 5). -/

namespace Sys2Proof.Machine

def exec (i : Instr) (s : State) : Host.Outcome State Fault Refusal :=
  match i with
  | .jmpNear r1 => Sys2Proof.Machine.execJmpNear r1 s
  | .jmpFar r1 seg => Sys2Proof.Machine.execJmpFar r1 seg s
  | .movrReg r1 r2 => Sys2Proof.Machine.execMovrReg r1 r2 s
  | .movrImm r1 imm => Sys2Proof.Machine.execMovrImm r1 imm s
  | .movmLoad r1 r2 => Sys2Proof.Machine.execMovmLoad r1 r2 s
  | .movmStore r1 r2 => Sys2Proof.Machine.execMovmStore r1 r2 s
  | .addReg r1 r2 => Sys2Proof.Machine.execAddReg r1 r2 s
  | .addImm r1 imm => Sys2Proof.Machine.execAddImm r1 imm s
  | .xorReg r1 r2 => Sys2Proof.Machine.execXorReg r1 r2 s
  | .xorImm r1 imm => Sys2Proof.Machine.execXorImm r1 imm s
  | .cmpReg r1 r2 => Sys2Proof.Machine.execCmpReg r1 r2 s
  | .cmpImm r1 imm => Sys2Proof.Machine.execCmpImm r1 imm s
  | .jmpeNear r1 => Sys2Proof.Machine.execJmpeNear r1 s
  | .jmpeFar r1 r2 => Sys2Proof.Machine.execJmpeFar r1 r2 s
  | .hlt ignored1 => Sys2Proof.Machine.execHlt ignored1 s
  | .hlt2 ignored1 ignored2 => Sys2Proof.Machine.execHlt2 ignored1 ignored2 s

end Sys2Proof.Machine
end

