-- ==== Sys2Proof/Machine/Cycle.lean ====
section
/-! DEFINITION. One execution cycle of a running machine (40_execution_cycle.md R70): fetch (R71), decode (R72), advance
(R73), execute (R74), in that order. -/

namespace Sys2Proof.Machine

/-- `cycle()` of R70. A raise in fetch leaves `ip` as it was; a raise in execute leaves it advanced (60_exceptions.md
R119, the spec's decision D10: log entry 12). -/
def cycle (s : State) : Result :=
  match fetch s with
  | none => raise .outOfBounds s
  | some (b1, b2) =>
    match decode b1 b2 with
    | .error _ => raise .invalidOpcode s
    | .ok i => exec i (s.advanceIp i.length)

end Sys2Proof.Machine
end

