-- ==== Sys2Proof/Machine/Step.lean ====
section
/-! DEFINITION. One step of the machine: a cycle while it runs, nothing once it has terminated. -/

namespace Sys2Proof.Machine

/-- One iteration of the execution loop (40_execution_cycle.md R70, R75). A terminated machine performs no cycle and
changes no state (60_exceptions.md R116; that the step answers the same state is a DESIGN CHOICE, safe: log entry 2). -/
def step (s : State) : Host.Outcome State Fault Refusal :=
  match s.status with
  | .running => cycle s
  | .terminated _ => .next s

/-- The state with an opcode-table word stored where the next fetch reads it: byte 1 in bits 7 to 0, byte 2 in bits 15 to
8, every bit from `nbits` up 0 (log entry 6). -/
def State.withFetchWord (s : State) (nbits w : Nat) : State :=
  s.placeFetchBytes (BitVec.ofNat 8 (w % 2 ^ nbits)) (BitVec.ofNat 8 (w % 2 ^ nbits / 256))

end Sys2Proof.Machine
end

