-- ==== Sys2Proof/Safety.lean ====
section
/-! DEFINITION. What counts as a safe state and a safe run, in the terms the claims use. -/

namespace Sys2Proof.Machine

/-- The three codes of the flags register (10_state.md R17, R18). -/
def LegalFlags (f : Byte) : Prop := f = flagEqual ∨ f = flagLess ∨ f = flagGreater

/-- The invariant of the machine: what holds when a run starts and is kept by every step. -/
structure State.Inv (s : State) : Prop where
  /-- flags is one of its three codes (10_state.md R18). -/
  flagsLegal : LegalFlags s.flags
  /-- The store is in its canonical form (log entry 4). -/
  memCanonical : Memory.wf s.mem = true
  /-- No cell is listed at or beyond MEM_SIZE: such a cell does not exist (20_memory.md R35). -/
  memInStore : ∀ c ∈ s.mem, c.1 < s.cfg.memSize
  /-- InvalidOpcode is never the reason (60_exceptions.md R112). -/
  noInvalidOpcode : s.status ≠ .terminated .invalidOpcode
  /-- The byte a halt reports is the flags register (60_exceptions.md R115), which stays as it is afterwards (R116). -/
  haltReportsFlags : ∀ f, s.status = .terminated (.programHalted f) → f = s.flags

/-- The run has ended successfully: by hlt (70_reset_and_hazards.md R142). -/
def State.Successful (s : State) : Prop := ∃ f, s.status = .terminated (.programHalted f)

/-- The run has ended by one of the four fault reasons (60_exceptions.md R110). -/
def State.Faulted (s : State) : Prop := ∃ r, s.status = .terminated r ∧ ∀ f, r ≠ .programHalted f

/-- The forms whose operand1 is a destination register (10_state.md R23): movr, add and xor in both modes, movm mode 0. -/
def WritesRegister (i : Instr) : Prop :=
  i.opcode = .movr ∨ i.opcode = .add ∨ i.opcode = .xor ∨ (i.opcode = .movm ∧ i.mode = false)

/-- Every byte of memory reads as before. -/
def SameCells (s t : State) : Prop := ∀ x, Memory.read t.mem x = Memory.read s.mem x

/-- The data access of `movm` through the offset `off` names no cell (20_memory.md R35). -/
def DataOutOfBounds (s : State) (off : Byte) : Prop := s.cfg.memSize ≤ (s.reg .ds).toNat * 16 + off.toNat

/-- When an executor raises, and which reason, row by row of the table of 60_exceptions.md R118, with the order of R120:
an invalid index before a bad address or an overflow. `s` is the state with `ip` advanced. -/
def Raises (i : Instr) (s : State) (r : Reason) : Prop :=
  match i with
  | .jmpNear r1 => r = .invalidRegister ∧ 5 < r1
  | .jmpFar r1 _ => r = .invalidRegister ∧ 5 < r1
  | .movrReg r1 r2 => r = .invalidRegister ∧ (5 < r1 ∨ 5 < r2)
  | .movrImm r1 _ => r = .invalidRegister ∧ 5 < r1
  | .movmLoad r1 r2 =>
    r = .invalidRegister ∧ (5 < r1 ∨ 5 < r2) ∨
      r = .outOfBounds ∧ r1 ≤ 5 ∧ ∃ b, Reg.ofIndex r2 = some b ∧ DataOutOfBounds s (s.reg b)
  | .movmStore r1 r2 =>
    r = .invalidRegister ∧ (5 < r1 ∨ 5 < r2) ∨
      r = .outOfBounds ∧ r2 ≤ 5 ∧ ∃ a, Reg.ofIndex r1 = some a ∧ DataOutOfBounds s (s.reg a)
  | .addReg r1 r2 =>
    r = .invalidRegister ∧ (5 < r1 ∨ 5 < r2) ∨
      r = .arithmeticOverflow ∧
        ∃ a b, Reg.ofIndex r1 = some a ∧ Reg.ofIndex r2 = some b ∧ 0xFF < (s.reg a).toNat + (s.reg b).toNat
  | .addImm r1 imm =>
    r = .invalidRegister ∧ 5 < r1 ∨
      r = .arithmeticOverflow ∧ ∃ a, Reg.ofIndex r1 = some a ∧ 0xFF < (s.reg a).toNat + imm.toNat
  | .xorReg r1 r2 => r = .invalidRegister ∧ (5 < r1 ∨ 5 < r2)
  | .xorImm r1 _ => r = .invalidRegister ∧ 5 < r1
  | .cmpReg r1 r2 => r = .invalidRegister ∧ (5 < r1 ∨ 5 < r2)
  | .cmpImm r1 _ => r = .invalidRegister ∧ 5 < r1
  | .jmpeNear r1 => r = .invalidRegister ∧ s.flags = 0x00#8 ∧ 5 < r1
  | .jmpeFar r1 r2 => r = .invalidRegister ∧ s.flags = 0x00#8 ∧ (5 < r1 ∨ 5 < r2)
  | .hlt _ => r = .programHalted s.flags
  | .hlt2 _ _ => r = .programHalted s.flags

/-- `k` steps of the machine, as the host runs it. -/
abbrev runFor (k : Nat) (s : State) : Host.Outcome State Fault Refusal := Host.Core.run Sys2Proof.core k s

end Sys2Proof.Machine
end

