-- ==== Sys2Proof/Certificates/Slice0/Obligations.lean ====
section
/-! DEFINITION. The claims about the machine. Each docstring names the rule of spec/ it formalises; where a clause rests on
one of the spec's own decisions (92_eei_decisions.md) or on a choice of the model, it names that. Each claim about `exec`
is about the state with `ip` already advanced, as the executor sees it (40_execution_cycle.md R73). -/

open Sys2Proof Sys2Proof.Machine

/-! ### Encoding -/

/-- 30_encoding.md sections 1 to 4: no bit of an encoding is dropped. That this holds of the ignored fields of hlt too is
the model's choice (DESIGN CHOICE, log entry 16). -/
def Obligations.DecodeInvertsEncode : Prop :=
  ∀ (i : Instr) (rest : List Byte), i.wellFormed = true → decodeBytes (encode i ++ rest) = .ok (i, rest)

/-- 30_encoding.md sections 1 to 4: each word has one meaning, and it is a well-formed one. That the encoding gives back
every bit of byte 1 and byte 2 of an hlt is the model's choice (DESIGN CHOICE, log entry 16): its constructors keep the
fields that R57 calls ignored, where the spec makes all these words the same hlt. -/
def Obligations.EncodeInvertsDecode : Prop :=
  ∀ (bytes : List Byte) (i : Instr) (rest : List Byte),
    decodeBytes bytes = .ok (i, rest) → i.wellFormed = true ∧ encode i ++ rest = bytes

/-- R51, with the consequence it draws: every byte 1 decodes. -/
def Obligations.FieldsAreExtractedBitExact : Prop :=
  ∀ b1 b2 : Byte, ∃ i, decode b1 b2 = .ok i ∧
    i.opcode.number = b1.toNat / 32 ∧ i.mode = b1.getLsbD 4 ∧ i.operand1 = b1.toNat % 16 ∧
    i.operand2 = (if i.length = 1 then none else some b2)

/-- R55, by opcode and mode and by the values of byte 1. -/
def Obligations.LengthRule : Prop :=
  ∀ (b1 b2 : Byte) (i : Instr), decode b1 b2 = .ok i →
    (i.length = 1 ∨ i.length = 2) ∧
    (i.length = 1 ↔ (i.opcode = .jmp ∨ i.opcode = .jmpe ∨ i.opcode = .hlt) ∧ i.mode = false) ∧
    (i.length = 1 ↔ b1.toNat ≤ 0x0F ∨ (0xC0 ≤ b1.toNat ∧ b1.toNat ≤ 0xCF) ∨ (0xE0 ≤ b1.toNat ∧ b1.toNat ≤ 0xEF))

/-- 30_encoding.md section 5: the bytes of the syntax table, one word a form. The opcode numbers but movr's and hlt's are
the spec's decision D1. -/
def Obligations.DecodedWordsOfTheSyntaxTable : Prop :=
  decode 0x01#8 0xEE#8 = .ok (.jmpNear 1) ∧ decode 0x10#8 0x02#8 = .ok (.jmpFar 0 0x02#8) ∧
  decode 0x21#8 0x05#8 = .ok (.movrReg 1 5) ∧ decode 0x30#8 0x05#8 = .ok (.movrImm 0 0x05#8) ∧
  decode 0x40#8 0x01#8 = .ok (.movmLoad 0 1) ∧ decode 0x51#8 0x00#8 = .ok (.movmStore 1 0) ∧
  decode 0x61#8 0x02#8 = .ok (.addReg 1 2) ∧ decode 0x71#8 0x05#8 = .ok (.addImm 1 0x05#8) ∧
  decode 0x80#8 0x00#8 = .ok (.xorReg 0 0) ∧ decode 0x90#8 0xAA#8 = .ok (.xorImm 0 0xAA#8) ∧
  decode 0xA1#8 0x02#8 = .ok (.cmpReg 1 2) ∧ decode 0xB1#8 0x05#8 = .ok (.cmpImm 1 0x05#8) ∧
  decode 0xC2#8 0xEE#8 = .ok (.jmpeNear 2) ∧ decode 0xD0#8 0x01#8 = .ok (.jmpeFar 0 1) ∧
  decode 0xE0#8 0xEE#8 = .ok (.hlt 0) ∧ decode 0xF0#8 0x00#8 = .ok (.hlt2 0 0x00#8)

/-- 30_encoding.md section 3 (R56) and 40_execution_cycle.md section 1 (R71; 60_exceptions.md R114 and R120 items 1 and 2),
with the offset of byte 2 by the spec's decision D5, a missing cell by D2, its precedence by D7 and the jump not taken by
D8: both bytes are fetched whatever byte 1 is; the fetch fails exactly when the cell of byte 1 or of byte 2 is missing,
and then the cycle ends with OutOfBounds and nothing but status changed, ip not advanced; a one-byte form does not depend
on byte 2 and does not hold it; a one-byte form that falls through leaves it to be the next byte 1. -/
def Obligations.ByteTwoIsFetchedForEveryInstruction : Prop :=
  (∀ s : State, fetch s = none ↔
    s.cfg.memSize ≤ s.regs.cs.toNat * 16 + s.ip.toNat ∨
    s.cfg.memSize ≤ s.regs.cs.toNat * 16 + (s.ip.toNat + 1) % 256) ∧
  (∀ s : State, s.status = .running → fetch s = none →
    step s = .next { s with status := .terminated .outOfBounds }) ∧
  (∀ (b1 b2 c2 : Byte) (i : Instr), decode b1 b2 = .ok i → i.length = 1 →
    decode b1 c2 = .ok i ∧ encode i = [b1]) ∧
  (∀ (s : State) (b1 b2 : Byte) (r1 : Nat), s.status = .running → fetch s = some (b1, b2) →
    decode b1 b2 = .ok (.jmpeNear r1) → s.flags ≠ 0x00#8 →
    ∃ t, step s = .next t ∧ t.status = .running ∧ readCell t (fetchAddr1 t) = some b2)

/-! ### Registers and reset -/

/-- R10: which register an index names, and that no other index names one. -/
def Obligations.IndexedRegisterSpace : Prop :=
  ∀ s : State,
    (Reg.ofIndex 0).map s.reg = some s.regs.r0 ∧ (Reg.ofIndex 1).map s.reg = some s.regs.r1 ∧
    (Reg.ofIndex 2).map s.reg = some s.regs.r2 ∧ (Reg.ofIndex 3).map s.reg = some s.regs.r3 ∧
    (Reg.ofIndex 4).map s.reg = some s.regs.cs ∧ (Reg.ofIndex 5).map s.reg = some s.regs.ds ∧
    ∀ i, 5 < i → Reg.ofIndex i = none

/-- R14: a register holds what was last written to it, a write changes nothing else, and an index outside 0 to 5 fails. -/
def Obligations.RegisterReadAfterWrite : Prop :=
  (∀ i, i ≤ 5 → ∃ r, Reg.ofIndex i = some r ∧ ∀ (s : State) (v : Byte),
    (s.setReg r v).reg r = v ∧
    (∀ j q, j ≠ i → Reg.ofIndex j = some q → (s.setReg r v).reg q = s.reg q) ∧
    (s.setReg r v).ip = s.ip ∧ (s.setReg r v).flags = s.flags ∧ (s.setReg r v).mem = s.mem ∧
    (s.setReg r v).status = s.status) ∧
  (∀ (i : Nat) (s : State) (next : Reg → Result), 5 < i →
    withReg i s next = .next { s with status := .terminated .invalidRegister })

/-- 70_reset_and_hazards.md section 1 (R131 for the values): reset of a machine in any state. That reset may come again, in
any state, and keeps memory as it then stands is the spec's decision D16 (R130, log entry 15). The state of the last clause
has the size and contents that the model chose for it (log entry 1). -/
def Obligations.ResetSequence : Prop :=
  ∀ s : State,
    s.applyReset = { s with
      regs := { r0 := 0x00#8, r1 := 0x00#8, r2 := 0x00#8, r3 := 0x00#8, cs := 0x00#8, ds := 0x10#8 }
      ip := 0x00#8, flags := 0x00#8, status := .running } ∧
    State.reset.applyReset = State.reset

/-- The invariant holds when a run starts, whatever the size and the canonical contents of the store, and after a reset of
any state that meets it. Rests on the model's form of memory (log entry 4) and on the reset state's parameters (entry 1). -/
def Obligations.ResetMeetsInvariant : Prop :=
  State.reset.Inv ∧
  (∀ (cfg : Config) (mem : Memory), Memory.wf mem = true → (∀ c ∈ mem, c.1 < cfg.memSize) →
    (State.resetWith cfg mem).Inv) ∧
  (∀ s : State, s.Inv → s.applyReset.Inv)

/-- 70_reset_and_hazards.md section 1 (R132, whose fault clause the spec marks as derived): the first cycle fetches flat
addresses 0 and 1, and faults when there is no cell 1. -/
def Obligations.FirstCycleFetchesFlatZero : Prop :=
  ∀ (cfg : Config) (mem : Memory),
    (2 ≤ cfg.memSize → fetch (State.resetWith cfg mem) = some (Memory.read mem 0, Memory.read mem 1)) ∧
    (cfg.memSize < 2 → step (State.resetWith cfg mem) =
      .next { State.resetWith cfg mem with status := .terminated .outOfBounds })

/-! ### Memory -/

/-- 20_memory.md section 2 (R36): any MEM_INIT can be the start of a run; the store behaves as an array of MEM_SIZE bytes;
only movm mode 1 writes it; every cell below MEM_SIZE can be read. That the start of a run meets the invariant, so that
every MEM_INIT has a canonical list of cells, is the model's form of memory (DESIGN CHOICE, log entry 4). -/
def Obligations.StoreLaw : Prop :=
  (∀ (cfg : Config) (memInit : Nat → Byte), ∃ mem, (State.resetWith cfg mem).Inv ∧
    ∀ a, a < cfg.memSize → readCell (State.resetWith cfg mem) a = some (memInit a)) ∧
  (∀ (s t : State) (a : Nat) (v : Byte), Memory.wf s.mem = true → writeCell s a v = some t →
    readCell t a = some v ∧ ∀ x, x ≠ a → readCell t x = readCell s x) ∧
  (∀ s t : State, step s = .next t → t.mem ≠ s.mem → s.status = .running ∧
    ∃ b1 b2 r1 r2, fetch s = some (b1, b2) ∧ decode b1 b2 = .ok (.movmStore r1 r2)) ∧
  (∀ (s : State) (a : Nat), a < s.cfg.memSize → (readCell s a).isSome = true)

/-- 20_memory.md section 2 (R33, R34, R35): the two operations of the memory port. That an address at or beyond MEM_SIZE
fails and is not wrapped or truncated is the spec's decisions D2 and D17. -/
def Obligations.MemoryPort : Prop :=
  (∀ (s : State) (seg off : Byte), memReadSeg s seg off =
    if seg.toNat * 16 + off.toNat < s.cfg.memSize then some (Memory.read s.mem (seg.toNat * 16 + off.toNat)) else none) ∧
  (∀ (s : State) (seg off v : Byte), Memory.wf s.mem = true → seg.toNat * 16 + off.toNat < s.cfg.memSize →
    ∃ m, memWriteSeg s seg off v = some { s with mem := m } ∧
      ∀ x, Memory.read m x = if x = seg.toNat * 16 + off.toNat then v else Memory.read s.mem x) ∧
  (∀ (s : State) (seg off v : Byte), s.cfg.memSize ≤ seg.toNat * 16 + off.toNat → memWriteSeg s seg off v = none)

/-- The model's own form of memory (DESIGN CHOICE, log entry 4): stores that read alike are equal data. -/
def Obligations.CanonicalStoresThatReadAlikeAreEqual : Prop :=
  ∀ m n : Memory, Memory.wf m = true → Memory.wf n = true → (∀ x, Memory.read m x = Memory.read n x) → m = n

/-- 20_memory.md section 1 (R32, which the spec marks as derived from the translation): two pairs are the same cell exactly
when their flat addresses agree, and neighbouring windows overlap. -/
def Obligations.PairsWithOneFlatAddressAreOneCell : Prop :=
  (∀ (s t : State) (seg off seg' off' v : Byte), Memory.wf s.mem = true → memWriteSeg s seg off v = some t →
    (seg.toNat * 16 + off.toNat = seg'.toNat * 16 + off'.toNat → memReadSeg t seg' off' = some v) ∧
    (seg.toNat * 16 + off.toNat ≠ seg'.toNat * 16 + off'.toNat → memReadSeg t seg' off' = memReadSeg s seg' off')) ∧
  (∀ (s : State) (seg off : Byte), seg.toNat + 1 ≤ 255 → 16 ≤ off.toNat →
    memReadSeg s seg off = memReadSeg s (seg + 1#8) (off - 16#8))

/-- 42_data_movement.md section "The family as a whole" (R94, whose general statement the spec marks as derived): a load
after a store through the same data segment and offset gives the stored value. -/
def Obligations.LoadAfterStoreRoundTrips : Prop :=
  ∀ (s t : State) (r1 r2 r3 : Nat) (a b c : Reg), Memory.wf s.mem = true →
    Reg.ofIndex r1 = some a → Reg.ofIndex r2 = some b → Reg.ofIndex r3 = some c →
    exec (.movmStore r1 r2) s = .next t → t.status = .running →
    exec (.movmLoad r3 r1) t = .next { t with regs := t.regs.set c (s.reg b) }

/-- 70_reset_and_hazards.md section 2 (R133): an image loaded at a flat address lies there byte by byte. What the loader
does with bytes that do not fit is the model's choice (log entry 6) and not claimed. -/
def Obligations.LoadedImageLiesInTheStore : Prop :=
  ∀ (s : State) (a : Nat) (bytes : List Byte) (k : Nat) (v : Byte), Memory.wf s.mem = true →
    bytes[k]? = some v → a + k < s.cfg.memSize → readCell (s.loadImage a bytes) (a + k) = some v

/-! ### The step and the run -/

/-- 40_execution_cycle.md section 1 (R70 to R74, with the spec's decisions D4 and D5 for the two reductions modulo 256):
a running machine whose two bytes at `cs:ip` decode to `i` does `exec i` with `ip` advanced by the length of `i`. -/
def Obligations.StepRunsTheDecodedInstruction : Prop :=
  ∀ (s : State) (b1 b2 : Byte) (i : Instr), s.status = .running →
    readCell s (s.regs.cs.toNat * 16 + s.ip.toNat) = some b1 →
    readCell s (s.regs.cs.toNat * 16 + (s.ip.toNat + 1) % 256) = some b2 →
    decode b1 b2 = .ok i →
    step s = exec i { s with ip := BitVec.ofNat 8 ((s.ip.toNat + i.length) % 256) }

/-- 40_execution_cycle.md section 1 and the model's form of termination (DESIGN CHOICE, log entry 2): a step always answers
a next state; no bytes and no operands stop the model. -/
def Obligations.EveryStepAnswersANextState : Prop :=
  ∀ s : State, ∃ t, step s = .next t

/-- 60_exceptions.md section 2 (R116): a raise sets status and nothing else; from then on no state changes, however long the
machine runs. That a raise is a next state and that a step of a terminated machine answers that same state is the model's
form of termination (DESIGN CHOICE, log entry 2). -/
def Obligations.TerminationIsFinal : Prop :=
  (∀ (r : Reason) (s : State), raise r s = .next { s with status := .terminated r }) ∧
  (∀ (s : State) (r : Reason) (k : Nat), s.status = .terminated r → runFor k s = .next s) ∧
  (∀ (s t : State) (r : Reason) (j k : Nat), runFor j s = .next t → t.status = .terminated r → j ≤ k →
    runFor k s = .next t)

/-- Every step keeps the invariant: flags stays one of its three codes, memory stays canonical and inside the store,
InvalidOpcode is never the reason, and a halt reports the flags register (10_state.md section 3, 60_exceptions.md
section 1, and the model's form of memory, log entry 4). -/
def Obligations.StepKeepsInvariant : Prop :=
  ∀ s t : State, s.Inv → step s = .next t → t.Inv

/-- Every run from a state that meets the invariant goes on to states that meet it, in a machine of the same size. -/
def Obligations.EveryRunKeepsInvariant : Prop :=
  ∀ (s : State) (k : Nat), s.Inv → ∃ t, runFor k s = .next t ∧ t.Inv ∧ t.cfg = s.cfg

/-- 60_exceptions.md section 2 (R119, with the spec's decision D10): a cycle that raises in fetch changes nothing but
status; one that raises in execute changes nothing but `ip`, advanced by the instruction's length, and status. -/
def Obligations.TerminationIsPrecise : Prop :=
  ∀ (s t : State) (r : Reason), s.status = .running → step s = .next t → t.status = .terminated r →
    (fetch s = none ∧ r = .outOfBounds ∧ t = { s with status := .terminated r }) ∨
    (∃ b1 b2 i, fetch s = some (b1, b2) ∧ decode b1 b2 = .ok i ∧
      t = { s with ip := s.ip + BitVec.ofNat 8 i.length, status := .terminated r })

/-- 60_exceptions.md section 2 (R118 and R120, with the spec's decisions D7, D8 and D9): each form raises exactly what its
row says, changing nothing but status; where its row says nothing, it completes and the run goes on. -/
def Obligations.WhichFormRaisesWhat : Prop :=
  (∀ (i : Instr) (s : State) (r : Reason), Raises i s r → exec i s = .next { s with status := .terminated r }) ∧
  (∀ (i : Instr) (s : State), (∀ r, ¬ Raises i s r) → ∃ t, exec i s = .next t ∧ t.status = s.status)

/-- 60_exceptions.md section 1 (R112, marked derived): no step raises InvalidOpcode. -/
def Obligations.InvalidOpcodeIsUnreachable : Prop :=
  ∀ s t : State, step s = .next t → t.status = .terminated .invalidOpcode → s.status = .terminated .invalidOpcode

/-- 00_scope.md section 3 (R6, marked derived) and 60_exceptions.md section 1: with 4336 cells or more no step raises
OutOfBounds. With fewer, the port cannot read the highest address, and every running machine about to fetch there ends its
cycle with OutOfBounds; there is one for each smaller size, so 4336 is the least size without the fault. -/
def Obligations.OutOfBoundsNeedsASmallStore : Prop :=
  (∀ s t : State, 4336 ≤ s.cfg.memSize → s.status = .running → step s = .next t → t.status ≠ .terminated .outOfBounds) ∧
  (∀ s : State, s.cfg.memSize < 4336 → memReadSeg s 0xFF#8 0xFF#8 = none) ∧
  (∀ s : State, s.cfg.memSize < 4336 → s.status = .running → s.regs.cs = 0xFF#8 → s.ip = 0xFF#8 →
    step s = .next { s with status := .terminated .outOfBounds }) ∧
  (∀ size, size < 4336 → ∃ s t : State, s.Inv ∧ s.cfg.memSize = size ∧ s.status = .running ∧
    step s = .next t ∧ t.status = .terminated .outOfBounds)

/-- 44_halt.md section "The family as a whole" and 70_reset_and_hazards.md section 5: a cycle ends the run successfully
exactly when it executes hlt in either mode, and the reason carries the flags register. -/
def Obligations.OnlyHltEndsARunSuccessfully : Prop :=
  ∀ s t : State, s.status = .running → step s = .next t →
    (t.Successful ↔ ∃ b1 b2 i, fetch s = some (b1, b2) ∧ decode b1 b2 = .ok i ∧ i.opcode = .hlt) ∧
    (t.Successful → t.status = .terminated (.programHalted s.flags)) ∧
    (t.status = .running ∨ t.Successful ∨ t.Faulted) ∧ ¬ (t.Successful ∧ t.Faulted)

/-- 10_state.md section 6 (R23, marked derived): which executor writes which piece of state. -/
def Obligations.WhoWritesWhat : Prop :=
  ∀ (i : Instr) (s t : State), exec i s = .next t →
    (t.ip ≠ s.ip → i.opcode = .jmp ∨ i.opcode = .jmpe) ∧
    (t.flags ≠ s.flags → i.opcode = .cmp) ∧
    (t.mem ≠ s.mem → i.opcode = .movm ∧ i.mode = true) ∧
    (∀ q, q ≠ .cs → t.reg q ≠ s.reg q → WritesRegister i ∧ Reg.ofIndex i.operand1 = some q) ∧
    (t.reg .cs ≠ s.reg .cs → (WritesRegister i ∧ i.operand1 = 4) ∨
      (i.opcode = .jmp ∧ i.mode = true) ∨ (i.opcode = .jmpe ∧ i.mode = true ∧ s.flags = 0x00#8)) ∧
    t.cfg = s.cfg

/-- 20_memory.md section 5 (R45, whose consequence for the next instruction the spec marks as derived): the fetch after a
store sees the stored byte, in either byte of the next instruction. -/
def Obligations.StoreIsSeenByTheNextFetch : Prop :=
  ∀ (s : State) (b1 b2 : Byte) (r1 r2 : Nat) (a b : Reg), s.status = .running → Memory.wf s.mem = true →
    fetch s = some (b1, b2) → decode b1 b2 = .ok (.movmStore r1 r2) →
    Reg.ofIndex r1 = some a → Reg.ofIndex r2 = some b → dataAddr s (s.reg a) < s.cfg.memSize →
    ∃ t, step s = .next t ∧ t.status = .running ∧
      ∀ c1 c2, fetch t = some (c1, c2) →
        c1 = (if fetchAddr1 t = dataAddr s (s.reg a) then s.reg b else Memory.read s.mem (fetchAddr1 t)) ∧
        c2 = (if fetchAddr2 t = dataAddr s (s.reg a) then s.reg b else Memory.read s.mem (fetchAddr2 t))

/-- 20_memory.md section 4 (R42): only the two fetched cells and the data window through `ds` can influence a cycle; cells
that differ elsewhere make no difference to it, and two stores differ afterwards only where they differed before. -/
def Obligations.CellsNotReachedDoNotMatter : Prop :=
  ∀ (s t : State) (m : Memory), Memory.wf s.mem = true → Memory.wf m = true →
    Memory.read m (fetchAddr1 s) = Memory.read s.mem (fetchAddr1 s) →
    Memory.read m (fetchAddr2 s) = Memory.read s.mem (fetchAddr2 s) →
    (∀ off, Memory.read m (dataAddr s off) = Memory.read s.mem (dataAddr s off)) →
    step s = .next t →
    ∃ m', step { s with mem := m } = .next { t with mem := m' } ∧
      ∀ x, Memory.read m x = Memory.read s.mem x → Memory.read m' x = Memory.read t.mem x

/-- The model's loading of an opcode-table word (DESIGN CHOICE, log entry 6): the very next step runs the instruction that
the decoder reads in the word, and nothing but memory and status has been touched. -/
def Obligations.PlacedWordIsTheNextInstruction : Prop :=
  ∀ (s : State) (nbits w : Nat) (i : Instr), Memory.wf s.mem = true →
    fetchAddr1 s < s.cfg.memSize → fetchAddr2 s < s.cfg.memSize → decodeTableWord nbits w = some i →
    ∃ m, s.withFetchWord nbits w = { s with mem := m, status := .running } ∧
      step (s.withFetchWord nbits w) =
        exec i { s with mem := m, status := .running, ip := s.ip + BitVec.ofNat 8 i.length }

/-! ### Results, form by form -/

/-- R85. -/
def Obligations.JmpNearRule : Prop :=
  (∀ (r1 : Nat) (b2 : Byte), r1 < 16 →
    decode (BitVec.ofNat 8 (0x00 + r1)) b2 = .ok (.jmpNear r1) ∧ (Instr.jmpNear r1).length = 1) ∧
  (∀ (s : State) (r1 : Nat) (a : Reg), Reg.ofIndex r1 = some a →
    exec (.jmpNear r1) s = .next { s with ip := s.reg a }) ∧
  (∀ (s : State) (r1 : Nat), 5 < r1 →
    exec (.jmpNear r1) s = .next { s with status := .terminated .invalidRegister })

/-- 41_control_transfer.md section "jmp, mode 1" (R86). That every segment value is legal and used as it is, is the spec's
decision D20. The offset is read before cs is written. -/
def Obligations.JmpFarRule : Prop :=
  (∀ (r1 : Nat) (b2 : Byte), r1 < 16 →
    decode (BitVec.ofNat 8 (0x10 + r1)) b2 = .ok (.jmpFar r1 b2) ∧ (Instr.jmpFar r1 b2).length = 2) ∧
  (∀ (s : State) (r1 : Nat) (seg : Byte) (a : Reg), Reg.ofIndex r1 = some a →
    exec (.jmpFar r1 seg) s = .next { s with ip := s.reg a, regs := s.regs.set .cs seg }) ∧
  (∀ (s : State) (r1 : Nat) (seg : Byte), 5 < r1 →
    exec (.jmpFar r1 seg) s = .next { s with status := .terminated .invalidRegister })

/-- 41_control_transfer.md section "jmpe, mode 0" (R87). That a jump not taken checks no index is the spec's decision D8. -/
def Obligations.JmpeNearRule : Prop :=
  (∀ (r1 : Nat) (b2 : Byte), r1 < 16 →
    decode (BitVec.ofNat 8 (0xC0 + r1)) b2 = .ok (.jmpeNear r1) ∧ (Instr.jmpeNear r1).length = 1) ∧
  (∀ (s : State) (r1 : Nat) (a : Reg), s.flags = 0x00#8 → Reg.ofIndex r1 = some a →
    exec (.jmpeNear r1) s = .next { s with ip := s.reg a }) ∧
  (∀ (s : State) (r1 : Nat), s.flags = 0x00#8 → 5 < r1 →
    exec (.jmpeNear r1) s = .next { s with status := .terminated .invalidRegister }) ∧
  (∀ (s : State) (r1 : Nat), s.flags ≠ 0x00#8 → exec (.jmpeNear r1) s = .next s)

/-- 41_control_transfer.md section "jmpe, mode 1" (R88). That a jump not taken checks no index is the spec's decision D8,
that neither ip nor cs is written when one index is invalid its decision D6. Both registers are read before either write. -/
def Obligations.JmpeFarRule : Prop :=
  (∀ (r1 : Nat) (b2 : Byte), r1 < 16 →
    decode (BitVec.ofNat 8 (0xD0 + r1)) b2 = .ok (.jmpeFar r1 b2.toNat) ∧ (Instr.jmpeFar r1 b2.toNat).length = 2) ∧
  (∀ (s : State) (r1 r2 : Nat) (a b : Reg), s.flags = 0x00#8 → Reg.ofIndex r1 = some a → Reg.ofIndex r2 = some b →
    exec (.jmpeFar r1 r2) s = .next { s with ip := s.reg a, regs := s.regs.set .cs (s.reg b) }) ∧
  (∀ (s : State) (r1 r2 : Nat), s.flags = 0x00#8 → 5 < r1 ∨ 5 < r2 →
    exec (.jmpeFar r1 r2) s = .next { s with status := .terminated .invalidRegister }) ∧
  (∀ (s : State) (r1 r2 : Nat), s.flags ≠ 0x00#8 → exec (.jmpeFar r1 r2) s = .next s)

/-- R90. -/
def Obligations.MovrRegisterRule : Prop :=
  (∀ (r1 : Nat) (b2 : Byte), r1 < 16 →
    decode (BitVec.ofNat 8 (0x20 + r1)) b2 = .ok (.movrReg r1 b2.toNat) ∧ (Instr.movrReg r1 b2.toNat).length = 2) ∧
  (∀ (s : State) (r1 r2 : Nat) (a b : Reg), Reg.ofIndex r1 = some a → Reg.ofIndex r2 = some b →
    exec (.movrReg r1 r2) s = .next { s with regs := s.regs.set a (s.reg b) }) ∧
  (∀ (s : State) (r1 r2 : Nat), 5 < r1 ∨ 5 < r2 →
    exec (.movrReg r1 r2) s = .next { s with status := .terminated .invalidRegister })

/-- R91. -/
def Obligations.MovrImmediateRule : Prop :=
  (∀ (r1 : Nat) (b2 : Byte), r1 < 16 →
    decode (BitVec.ofNat 8 (0x30 + r1)) b2 = .ok (.movrImm r1 b2) ∧ (Instr.movrImm r1 b2).length = 2) ∧
  (∀ (s : State) (r1 : Nat) (imm : Byte) (a : Reg), Reg.ofIndex r1 = some a →
    exec (.movrImm r1 imm) s = .next { s with regs := s.regs.set a imm }) ∧
  (∀ (s : State) (r1 : Nat) (imm : Byte), 5 < r1 →
    exec (.movrImm r1 imm) s = .next { s with status := .terminated .invalidRegister })

/-- R92: the old ds addresses the read, also when ds is the destination. -/
def Obligations.MovmLoadRule : Prop :=
  (∀ (r1 : Nat) (b2 : Byte), r1 < 16 →
    decode (BitVec.ofNat 8 (0x40 + r1)) b2 = .ok (.movmLoad r1 b2.toNat) ∧ (Instr.movmLoad r1 b2.toNat).length = 2) ∧
  (∀ (s : State) (r1 r2 : Nat) (a b : Reg), Reg.ofIndex r1 = some a → Reg.ofIndex r2 = some b →
    s.regs.ds.toNat * 16 + (s.reg b).toNat < s.cfg.memSize →
    exec (.movmLoad r1 r2) s =
      .next { s with regs := s.regs.set a (Memory.read s.mem (s.regs.ds.toNat * 16 + (s.reg b).toNat)) }) ∧
  (∀ (s : State) (r1 r2 : Nat), 5 < r1 ∨ 5 < r2 →
    exec (.movmLoad r1 r2) s = .next { s with status := .terminated .invalidRegister }) ∧
  (∀ (s : State) (r1 r2 : Nat) (b : Reg), r1 ≤ 5 → Reg.ofIndex r2 = some b →
    s.cfg.memSize ≤ s.regs.ds.toNat * 16 + (s.reg b).toNat →
    exec (.movmLoad r1 r2) s = .next { s with status := .terminated .outOfBounds })

/-- R93: operand1 gives the offset, operand2 the value; exactly one cell changes. -/
def Obligations.MovmStoreRule : Prop :=
  (∀ (r1 : Nat) (b2 : Byte), r1 < 16 →
    decode (BitVec.ofNat 8 (0x50 + r1)) b2 = .ok (.movmStore r1 b2.toNat) ∧ (Instr.movmStore r1 b2.toNat).length = 2) ∧
  (∀ (s : State) (r1 r2 : Nat) (a b : Reg), Memory.wf s.mem = true → Reg.ofIndex r1 = some a →
    Reg.ofIndex r2 = some b → s.regs.ds.toNat * 16 + (s.reg a).toNat < s.cfg.memSize →
    ∃ m, exec (.movmStore r1 r2) s = .next { s with mem := m } ∧
      ∀ x, Memory.read m x =
        if x = s.regs.ds.toNat * 16 + (s.reg a).toNat then s.reg b else Memory.read s.mem x) ∧
  (∀ (s : State) (r1 r2 : Nat), 5 < r1 ∨ 5 < r2 →
    exec (.movmStore r1 r2) s = .next { s with status := .terminated .invalidRegister }) ∧
  (∀ (s : State) (r1 r2 : Nat) (a : Reg), r2 ≤ 5 → Reg.ofIndex r1 = some a →
    s.cfg.memSize ≤ s.regs.ds.toNat * 16 + (s.reg a).toNat →
    exec (.movmStore r1 r2) s = .next { s with status := .terminated .outOfBounds })

/-- 43_alu_compare.md section "add, mode 0" (R95). That an overflow leaves the destination as it was is the spec's decision
D14. -/
def Obligations.AddRegisterRule : Prop :=
  (∀ (r1 : Nat) (b2 : Byte), r1 < 16 →
    decode (BitVec.ofNat 8 (0x60 + r1)) b2 = .ok (.addReg r1 b2.toNat) ∧ (Instr.addReg r1 b2.toNat).length = 2) ∧
  (∀ (s : State) (r1 r2 : Nat) (a b : Reg), Reg.ofIndex r1 = some a → Reg.ofIndex r2 = some b →
    (s.reg a).toNat + (s.reg b).toNat ≤ 0xFF →
    ∃ v : Byte, v.toNat = (s.reg a).toNat + (s.reg b).toNat ∧
      exec (.addReg r1 r2) s = .next { s with regs := s.regs.set a v }) ∧
  (∀ (s : State) (r1 r2 : Nat) (a b : Reg), Reg.ofIndex r1 = some a → Reg.ofIndex r2 = some b →
    0xFF < (s.reg a).toNat + (s.reg b).toNat →
    exec (.addReg r1 r2) s = .next { s with status := .terminated .arithmeticOverflow }) ∧
  (∀ (s : State) (r1 r2 : Nat), 5 < r1 ∨ 5 < r2 →
    exec (.addReg r1 r2) s = .next { s with status := .terminated .invalidRegister })

/-- 43_alu_compare.md section "add, mode 1" (R96). That an overflow leaves the destination as it was is the spec's decision
D14 (log entry 12). -/
def Obligations.AddImmediateRule : Prop :=
  (∀ (r1 : Nat) (b2 : Byte), r1 < 16 →
    decode (BitVec.ofNat 8 (0x70 + r1)) b2 = .ok (.addImm r1 b2) ∧ (Instr.addImm r1 b2).length = 2) ∧
  (∀ (s : State) (r1 : Nat) (imm : Byte) (a : Reg), Reg.ofIndex r1 = some a →
    (s.reg a).toNat + imm.toNat ≤ 0xFF →
    ∃ v : Byte, v.toNat = (s.reg a).toNat + imm.toNat ∧
      exec (.addImm r1 imm) s = .next { s with regs := s.regs.set a v }) ∧
  (∀ (s : State) (r1 : Nat) (imm : Byte) (a : Reg), Reg.ofIndex r1 = some a →
    0xFF < (s.reg a).toNat + imm.toNat →
    exec (.addImm r1 imm) s = .next { s with status := .terminated .arithmeticOverflow }) ∧
  (∀ (s : State) (r1 : Nat) (imm : Byte), 5 < r1 →
    exec (.addImm r1 imm) s = .next { s with status := .terminated .invalidRegister })

/-- R97, with its corner cases: a register xor itself is 0x00, and the same xor twice restores the value. -/
def Obligations.XorRegisterRule : Prop :=
  (∀ (r1 : Nat) (b2 : Byte), r1 < 16 →
    decode (BitVec.ofNat 8 (0x80 + r1)) b2 = .ok (.xorReg r1 b2.toNat) ∧ (Instr.xorReg r1 b2.toNat).length = 2) ∧
  (∀ (s : State) (r1 r2 : Nat) (a b : Reg), Reg.ofIndex r1 = some a → Reg.ofIndex r2 = some b →
    exec (.xorReg r1 r2) s = .next { s with regs := s.regs.set a (s.reg a ^^^ s.reg b) }) ∧
  (∀ (s : State) (r1 r2 : Nat), 5 < r1 ∨ 5 < r2 →
    exec (.xorReg r1 r2) s = .next { s with status := .terminated .invalidRegister }) ∧
  (∀ (s : State) (r1 : Nat) (a : Reg), Reg.ofIndex r1 = some a →
    exec (.xorReg r1 r1) s = .next { s with regs := s.regs.set a 0x00#8 }) ∧
  (∀ (s t : State) (r1 r2 : Nat) (a b : Reg), Reg.ofIndex r1 = some a → Reg.ofIndex r2 = some b → a ≠ b →
    exec (.xorReg r1 r2) s = .next t → exec (.xorReg r1 r2) t = .next s)

/-- R98, with its corner cases: xor with 0x00 changes nothing, xor with 0xFF is the complement. -/
def Obligations.XorImmediateRule : Prop :=
  (∀ (r1 : Nat) (b2 : Byte), r1 < 16 →
    decode (BitVec.ofNat 8 (0x90 + r1)) b2 = .ok (.xorImm r1 b2) ∧ (Instr.xorImm r1 b2).length = 2) ∧
  (∀ (s : State) (r1 : Nat) (imm : Byte) (a : Reg), Reg.ofIndex r1 = some a →
    exec (.xorImm r1 imm) s = .next { s with regs := s.regs.set a (s.reg a ^^^ imm) }) ∧
  (∀ (s : State) (r1 : Nat) (imm : Byte), 5 < r1 →
    exec (.xorImm r1 imm) s = .next { s with status := .terminated .invalidRegister }) ∧
  (∀ (s : State) (r1 : Nat) (a : Reg), Reg.ofIndex r1 = some a →
    exec (.xorImm r1 0x00#8) s = .next s ∧
    exec (.xorImm r1 0xFF#8) s = .next { s with regs := s.regs.set a (~~~ s.reg a) })

/-- R99 (the comparison itself is `CompareIsUnsignedOrder`). -/
def Obligations.CmpRegisterRule : Prop :=
  (∀ (r1 : Nat) (b2 : Byte), r1 < 16 →
    decode (BitVec.ofNat 8 (0xA0 + r1)) b2 = .ok (.cmpReg r1 b2.toNat) ∧ (Instr.cmpReg r1 b2.toNat).length = 2) ∧
  (∀ (s : State) (r1 r2 : Nat) (a b : Reg), Reg.ofIndex r1 = some a → Reg.ofIndex r2 = some b →
    exec (.cmpReg r1 r2) s = .next
      { s with flags := (if s.reg a = s.reg b then 0x00#8 else if (s.reg a).toNat < (s.reg b).toNat then 0xFF#8 else 0x01#8) }) ∧
  (∀ (s : State) (r1 r2 : Nat), 5 < r1 ∨ 5 < r2 →
    exec (.cmpReg r1 r2) s = .next { s with status := .terminated .invalidRegister })

/-- R100 (the comparison itself is `CompareIsUnsignedOrder`). -/
def Obligations.CmpImmediateRule : Prop :=
  (∀ (r1 : Nat) (b2 : Byte), r1 < 16 →
    decode (BitVec.ofNat 8 (0xB0 + r1)) b2 = .ok (.cmpImm r1 b2) ∧ (Instr.cmpImm r1 b2).length = 2) ∧
  (∀ (s : State) (r1 : Nat) (imm : Byte) (a : Reg), Reg.ofIndex r1 = some a →
    exec (.cmpImm r1 imm) s = .next
      { s with flags := (if s.reg a = imm then 0x00#8 else if (s.reg a).toNat < imm.toNat then 0xFF#8 else 0x01#8) }) ∧
  (∀ (s : State) (r1 : Nat) (imm : Byte), 5 < r1 →
    exec (.cmpImm r1 imm) s = .next { s with status := .terminated .invalidRegister })

/-- R101: exactly one of the three cases holds for every pair, and the result is one of the three codes. -/
def Obligations.CompareIsUnsignedOrder : Prop :=
  ∀ a b : Byte,
    (compareBytes a b = 0x00#8 ↔ a = b) ∧ (compareBytes a b = 0xFF#8 ↔ a.toNat < b.toNat) ∧
    (compareBytes a b = 0x01#8 ↔ b.toNat < a.toNat) ∧ LegalFlags (compareBytes a b)

/-- 44_halt.md section "hlt, mode 0" (R103): the raise is the instruction's effect. That operand1 is ignored, whatever it
is, is the spec's decision D9. -/
def Obligations.HltRule : Prop :=
  (∀ (r1 : Nat) (b2 : Byte), r1 < 16 →
    decode (BitVec.ofNat 8 (0xE0 + r1)) b2 = .ok (.hlt r1) ∧ (Instr.hlt r1).length = 1) ∧
  (∀ (s : State) (ignored1 : Nat),
    exec (.hlt ignored1) s = .next { s with status := .terminated (.programHalted s.flags) })

/-- 44_halt.md section "hlt, mode 1" (R104). That both operands are ignored is the spec's decision D9. -/
def Obligations.HltTwoByteRule : Prop :=
  (∀ (r1 : Nat) (b2 : Byte), r1 < 16 →
    decode (BitVec.ofNat 8 (0xF0 + r1)) b2 = .ok (.hlt2 r1 b2) ∧ (Instr.hlt2 r1 b2).length = 2) ∧
  (∀ (s : State) (ignored1 : Nat) (ignored2 : Byte),
    exec (.hlt2 ignored1 ignored2) s = .next { s with status := .terminated (.programHalted s.flags) })

/-! ### Frames -/

/-- 42_data_movement.md and 43_alu_compare.md (R90, R91, R92, R95 to R98): movr, movm mode 0, add and xor change no register
but the destination, no flag, not ip, no byte of memory. -/
def Obligations.FrameOfRegisterWriters : Prop :=
  ∀ (i : Instr) (s t : State), WritesRegister i → exec i s = .next t →
    (∀ q, Reg.ofIndex i.operand1 ≠ some q → t.reg q = s.reg q) ∧
    t.ip = s.ip ∧ t.flags = s.flags ∧ t.cfg = s.cfg ∧ SameCells s t ∧
    (t.status = s.status ∨ ∃ r, Raises i s r ∧ t.status = .terminated r)

/-- 43_alu_compare.md (R99, R100): cmp changes no register, not ip and no byte of memory. -/
def Obligations.FrameOfCompares : Prop :=
  ∀ (i : Instr) (s t : State), i.opcode = .cmp → exec i s = .next t →
    (∀ q, t.reg q = s.reg q) ∧ t.ip = s.ip ∧ t.cfg = s.cfg ∧ SameCells s t ∧
    (t.status = s.status ∨ ∃ r, Raises i s r ∧ t.status = .terminated r ∧ t.flags = s.flags)

/-- 41_control_transfer.md (R85 to R88): jmp and jmpe change no register but cs, and that in mode 1 only, no flag and no
byte of memory; a jmpe that is not taken changes nothing. -/
def Obligations.FrameOfTransfers : Prop :=
  ∀ (i : Instr) (s t : State), i.opcode = .jmp ∨ i.opcode = .jmpe → exec i s = .next t →
    (∀ q, q ≠ .cs → t.reg q = s.reg q) ∧ (i.mode = false → t.reg .cs = s.reg .cs) ∧
    (i.opcode = .jmpe → s.flags ≠ 0x00#8 → t = s) ∧
    t.flags = s.flags ∧ t.cfg = s.cfg ∧ SameCells s t ∧
    (t.status = s.status ∨ ∃ r, Raises i s r ∧ t.status = .terminated r)

/-- 42_data_movement.md (R93): movm mode 1 changes no register, no flag, not ip, and no byte of memory but the one at the
data address of its offset register; none at all when an index is invalid. -/
def Obligations.FrameOfStores : Prop :=
  ∀ (s t : State) (r1 r2 : Nat), exec (.movmStore r1 r2) s = .next t →
    (∀ q, t.reg q = s.reg q) ∧ t.ip = s.ip ∧ t.flags = s.flags ∧ t.cfg = s.cfg ∧
    (∀ a, Reg.ofIndex r1 = some a →
      ∀ x, x ≠ dataAddr s (s.reg a) → Memory.read t.mem x = Memory.read s.mem x) ∧
    (5 < r1 ∨ 5 < r2 → SameCells s t) ∧
    (t.status = s.status ∨ ∃ r, Raises (.movmStore r1 r2) s r ∧ t.status = .terminated r ∧ SameCells s t)

/-- 44_halt.md (R103, R104): hlt changes no register, not flags, not ip beyond the advance, no byte of memory. -/
def Obligations.FrameOfHalts : Prop :=
  ∀ (i : Instr) (s t : State), i.opcode = .hlt → exec i s = .next t →
    (∀ q, t.reg q = s.reg q) ∧ t.ip = s.ip ∧ t.flags = s.flags ∧ t.cfg = s.cfg ∧ SameCells s t ∧ t.Successful
end

