-- ==== Sys2Proof/Laws/Encoding.lean ====
section
/-! SUPPORT. The fields of byte 1 as arithmetic, and what the decoder reads in a byte 1 the encoder writes. -/

namespace Sys2Proof

theorem opcodeField_eq (b1 : Byte) : opcodeField b1 = b1.toNat / 32 := by
  simp [opcodeField, BitVec.toNat_ushiftRight, Nat.shiftRight_eq_div_pow]

theorem operand1Field_eq (b1 : Byte) : operand1Field b1 = b1.toNat % 16 := by
  simp only [operand1Field, BitVec.toNat_and]
  exact Nat.and_two_pow_sub_one_eq_mod b1.toNat 4

theorem modeField_eq (b1 : Byte) : modeField b1 = decide (b1.toNat / 16 % 2 = 1) := by
  revert b1
  decide

@[simp] theorem Opcode.ofNumber_number (op : Opcode) : Opcode.ofNumber op.number = some op := by
  cases op <;> rfl

theorem Opcode.number_lt (op : Opcode) : op.number < 8 := by
  cases op <;> decide

/-- Byte 1 as a number: nothing of it is lost when operand1 fits its field. -/
theorem encodeByte1_toNat (op : Opcode) (mode : Bool) {r1 : Nat} (h : r1 < 16) :
    (encodeByte1 op mode r1).toNat = op.number * 32 + (if mode then 16 else 0) + r1 := by
  have := op.number_lt
  simp only [encodeByte1, BitVec.toNat_ofNat]
  cases mode <;> simp <;> omega

theorem opcodeField_encodeByte1 (op : Opcode) (mode : Bool) {r1 : Nat} (h : r1 < 16) :
    opcodeField (encodeByte1 op mode r1) = op.number := by
  rw [opcodeField_eq, encodeByte1_toNat op mode h]
  cases mode <;> simp <;> omega

theorem operand1Field_encodeByte1 (op : Opcode) (mode : Bool) {r1 : Nat} (h : r1 < 16) :
    operand1Field (encodeByte1 op mode r1) = r1 := by
  rw [operand1Field_eq, encodeByte1_toNat op mode h]
  cases mode <;> simp <;> omega

theorem modeField_encodeByte1 (op : Opcode) (mode : Bool) {r1 : Nat} (h : r1 < 16) :
    modeField (encodeByte1 op mode r1) = mode := by
  rw [modeField_eq, encodeByte1_toNat op mode h]
  cases mode <;> simp <;> omega

/-- Decoding a byte 1 that the encoder wrote. -/
theorem decode_encodeByte1 (op : Opcode) (mode : Bool) {r1 : Nat} (h : r1 < 16) (b2 : Byte) :
    decode (encodeByte1 op mode r1) b2 = .ok (assemble op mode r1 b2) := by
  simp only [decode, opcodeField_encodeByte1 op mode h, modeField_encodeByte1 op mode h,
    operand1Field_encodeByte1 op mode h, Opcode.ofNumber_number]

end Sys2Proof
end

