-- ==== Sys2Proof/Laws/Memory.lean ====
section
/-! SUPPORT. The laws of the byte store: a write keeps the canonical form, reads after it as the spec says, and lists no
address but the one written. -/

namespace Sys2Proof.Machine

@[simp] theorem Memory.read_nil (x : Nat) : Memory.read [] x = unlistedByte := rfl

theorem Memory.wfFrom_cons {low a : Nat} {v : Byte} {rest : Memory} :
    Memory.wfFrom low ((a, v) :: rest) = true ↔
      low ≤ a ∧ v ≠ unlistedByte ∧ Memory.wfFrom (a + 1) rest = true := by
  simp [Memory.wfFrom, and_assoc]

theorem Memory.wfFrom_mono {low low' : Nat} {m : Memory} (h : Memory.wfFrom low m = true) (hle : low' ≤ low) :
    Memory.wfFrom low' m = true := by
  cases m with
  | nil => rfl
  | cons c rest =>
    obtain ⟨a, v⟩ := c
    rw [Memory.wfFrom_cons] at h ⊢
    exact ⟨hle.trans h.1, h.2⟩

/-- Below its first listed address a canonical store holds nothing but the unlisted byte. -/
theorem Memory.read_of_lt {low x : Nat} {m : Memory} (h : Memory.wfFrom low m = true) (hx : x < low) :
    Memory.read m x = unlistedByte := by
  induction m generalizing low with
  | nil => rfl
  | cons c rest ih =>
    obtain ⟨a, v⟩ := c
    rw [Memory.wfFrom_cons] at h
    have hne : a ≠ x := by omega
    simp only [Memory.read, if_neg hne]
    exact ih h.2.2 (by omega)

theorem Memory.wfFrom_write {low x : Nat} {m : Memory} (v : Byte) (h : Memory.wfFrom low m = true) (hx : low ≤ x) :
    Memory.wfFrom low (Memory.write m x v) = true := by
  induction m generalizing low with
  | nil =>
    by_cases hv : v = unlistedByte
    · simp [Memory.write, Memory.wfFrom, hv]
    · simp [Memory.write, Memory.wfFrom, hv, hx]
  | cons c rest ih =>
    obtain ⟨a, w⟩ := c
    have h' := Memory.wfFrom_cons.mp h
    simp only [Memory.write]
    split_ifs with hax hv hlt hv
    · exact Memory.wfFrom_mono h'.2.2 (by omega)
    · exact Memory.wfFrom_cons.mpr ⟨hx, hv, hax ▸ h'.2.2⟩
    · exact h
    · exact Memory.wfFrom_cons.mpr ⟨hx, hv, Memory.wfFrom_cons.mpr ⟨by omega, h'.2⟩⟩
    · exact Memory.wfFrom_cons.mpr ⟨h'.1, h'.2.1, ih h'.2.2 (by omega)⟩

/-- The only operation that changes a store keeps its canonical form. -/
theorem Memory.write_keeps_wf {m : Memory} (x : Nat) (v : Byte) (h : Memory.wf m = true) :
    Memory.wf (Memory.write m x v) = true :=
  Memory.wfFrom_write v h (Nat.zero_le x)

theorem Memory.read_write_self_from {low : Nat} {m : Memory} (x : Nat) (v : Byte) (h : Memory.wfFrom low m = true) :
    Memory.read (Memory.write m x v) x = v := by
  induction m generalizing low with
  | nil =>
    by_cases hv : v = unlistedByte
    · simp [Memory.write, hv]
    · simp [Memory.write, Memory.read, hv]
  | cons c rest ih =>
    obtain ⟨a, w⟩ := c
    have h' := Memory.wfFrom_cons.mp h
    simp only [Memory.write]
    split_ifs with hax hv hlt hv
    · rw [Memory.read_of_lt h'.2.2 (by omega), hv]
    · simp [Memory.read]
    · have : Memory.wfFrom a ((a, w) :: rest) = true := Memory.wfFrom_cons.mpr ⟨le_refl a, h'.2⟩
      rw [Memory.read_of_lt this hlt, hv]
    · simp [Memory.read]
    · simp only [Memory.read, if_neg hax]
      exact ih h'.2.2

/-- The cell written holds the byte written. -/
theorem Memory.read_write_self {m : Memory} (x : Nat) (v : Byte) (h : Memory.wf m = true) :
    Memory.read (Memory.write m x v) x = v :=
  Memory.read_write_self_from x v h

/-- Every other cell is left alone. -/
theorem Memory.read_write_of_ne (m : Memory) {x y : Nat} (v : Byte) (h : y ≠ x) :
    Memory.read (Memory.write m x v) y = Memory.read m y := by
  induction m with
  | nil =>
    by_cases hv : v = unlistedByte
    · simp [Memory.write, hv]
    · simp [Memory.write, Memory.read, hv, Ne.symm h]
  | cons c rest ih =>
    obtain ⟨a, w⟩ := c
    simp only [Memory.write]
    split_ifs with hax hv hlt hv
    · simp [Memory.read, hax, Ne.symm h]
    · simp [Memory.read, hax, Ne.symm h]
    · rfl
    · simp [Memory.read, Ne.symm h]
    · simp only [Memory.read, ih]

/-- A write lists no address but the one written. -/
theorem Memory.mem_write {m : Memory} {x : Nat} {v : Byte} {c : Host.Cell} (h : c ∈ Memory.write m x v) :
    c ∈ m ∨ c.1 = x := by
  induction m with
  | nil =>
    simp only [Memory.write] at h
    split_ifs at h with hv
    · exact absurd h (by simp)
    · rw [List.mem_singleton.mp h]
      exact Or.inr rfl
  | cons d rest ih =>
    obtain ⟨a, w⟩ := d
    simp only [Memory.write] at h
    split_ifs at h with hax hv hlt hv
    · exact Or.inl (List.mem_cons_of_mem _ h)
    · rcases List.mem_cons.mp h with rfl | h
      · exact Or.inr rfl
      · exact Or.inl (List.mem_cons_of_mem _ h)
    · exact Or.inl h
    · rcases List.mem_cons.mp h with rfl | h
      · exact Or.inr rfl
      · exact Or.inl h
    · rcases List.mem_cons.mp h with rfl | h
      · exact Or.inl List.mem_cons_self
      · exact (ih h).imp (List.mem_cons_of_mem _) id

end Sys2Proof.Machine
end

