-- ==== Sys2Proof/Laws/State.lean ====
section
/-! SUPPORT. One lemma per field per update of the state, so that no proof unfolds a record update. -/

namespace Sys2Proof.Machine

/-! ### The register file -/

@[simp] theorem RegFile.get_set_self (f : RegFile) (r : Reg) (v : Byte) : (f.set r v).get r = v := by
  cases r <;> rfl

theorem RegFile.get_set_of_ne (f : RegFile) {r q : Reg} (v : Byte) (h : q ≠ r) : (f.set r v).get q = f.get q := by
  cases r <;> cases q <;> first | rfl | exact absurd rfl h

/-- Two register files that read alike are the same: a register has no home but its field. -/
theorem RegFile.ext_get {f g : RegFile} (h : ∀ r, f.get r = g.get r) : f = g := by
  have h0 := h .r0
  have h1 := h .r1
  have h2 := h .r2
  have h3 := h .r3
  have h4 := h .cs
  have h5 := h .ds
  cases f
  cases g
  simp_all [RegFile.get]

/-! ### Writing a register -/

@[simp] theorem State.setReg_cfg (s : State) (r : Reg) (v : Byte) : (s.setReg r v).cfg = s.cfg := rfl
@[simp] theorem State.setReg_regs (s : State) (r : Reg) (v : Byte) : (s.setReg r v).regs = s.regs.set r v := rfl
@[simp] theorem State.setReg_ip (s : State) (r : Reg) (v : Byte) : (s.setReg r v).ip = s.ip := rfl
@[simp] theorem State.setReg_flags (s : State) (r : Reg) (v : Byte) : (s.setReg r v).flags = s.flags := rfl
@[simp] theorem State.setReg_status (s : State) (r : Reg) (v : Byte) : (s.setReg r v).status = s.status := rfl
@[simp] theorem State.setReg_mem (s : State) (r : Reg) (v : Byte) : (s.setReg r v).mem = s.mem := rfl

@[simp] theorem State.reg_setReg_self (s : State) (r : Reg) (v : Byte) : (s.setReg r v).reg r = v :=
  RegFile.get_set_self s.regs r v

theorem State.reg_setReg_of_ne (s : State) {r q : Reg} (v : Byte) (h : q ≠ r) : (s.setReg r v).reg q = s.reg q :=
  RegFile.get_set_of_ne s.regs v h

/-! ### Writing the instruction pointer -/

@[simp] theorem State.setIp_cfg (s : State) (v : Byte) : (s.setIp v).cfg = s.cfg := rfl
@[simp] theorem State.setIp_regs (s : State) (v : Byte) : (s.setIp v).regs = s.regs := rfl
@[simp] theorem State.setIp_ip (s : State) (v : Byte) : (s.setIp v).ip = v := rfl
@[simp] theorem State.setIp_flags (s : State) (v : Byte) : (s.setIp v).flags = s.flags := rfl
@[simp] theorem State.setIp_status (s : State) (v : Byte) : (s.setIp v).status = s.status := rfl
@[simp] theorem State.setIp_mem (s : State) (v : Byte) : (s.setIp v).mem = s.mem := rfl
@[simp] theorem State.setIp_reg (s : State) (v : Byte) (r : Reg) : (s.setIp v).reg r = s.reg r := rfl

@[simp] theorem State.advanceIp_cfg (s : State) (n : Nat) : (s.advanceIp n).cfg = s.cfg := rfl
@[simp] theorem State.advanceIp_regs (s : State) (n : Nat) : (s.advanceIp n).regs = s.regs := rfl
@[simp] theorem State.advanceIp_ip (s : State) (n : Nat) : (s.advanceIp n).ip = s.ip + BitVec.ofNat 8 n := rfl
@[simp] theorem State.advanceIp_flags (s : State) (n : Nat) : (s.advanceIp n).flags = s.flags := rfl
@[simp] theorem State.advanceIp_status (s : State) (n : Nat) : (s.advanceIp n).status = s.status := rfl
@[simp] theorem State.advanceIp_mem (s : State) (n : Nat) : (s.advanceIp n).mem = s.mem := rfl
@[simp] theorem State.advanceIp_reg (s : State) (n : Nat) (r : Reg) : (s.advanceIp n).reg r = s.reg r := rfl

/-! ### Writing the flags register -/

@[simp] theorem State.setFlags_cfg (s : State) (v : Byte) : (s.setFlags v).cfg = s.cfg := rfl
@[simp] theorem State.setFlags_regs (s : State) (v : Byte) : (s.setFlags v).regs = s.regs := rfl
@[simp] theorem State.setFlags_ip (s : State) (v : Byte) : (s.setFlags v).ip = s.ip := rfl
@[simp] theorem State.setFlags_flags (s : State) (v : Byte) : (s.setFlags v).flags = v := rfl
@[simp] theorem State.setFlags_status (s : State) (v : Byte) : (s.setFlags v).status = s.status := rfl
@[simp] theorem State.setFlags_mem (s : State) (v : Byte) : (s.setFlags v).mem = s.mem := rfl
@[simp] theorem State.setFlags_reg (s : State) (v : Byte) (r : Reg) : (s.setFlags v).reg r = s.reg r := rfl

/-! ### Updates of one field, as record updates -/

@[simp] theorem State.reg_of_status (s : State) (x : Status) (r : Reg) : ({ s with status := x } : State).reg r = s.reg r := rfl
@[simp] theorem State.reg_of_mem (s : State) (m : Memory) (r : Reg) : ({ s with mem := m } : State).reg r = s.reg r := rfl
@[simp] theorem State.reg_of_ip (s : State) (v : Byte) (r : Reg) : ({ s with ip := v } : State).reg r = s.reg r := rfl

/-! ### Reset -/

@[simp] theorem State.applyReset_cfg (s : State) : s.applyReset.cfg = s.cfg := rfl
@[simp] theorem State.applyReset_mem (s : State) : s.applyReset.mem = s.mem := rfl

/-- The state after reset is what the reset event makes of the standard machine with an empty store. -/
theorem State.applyReset_reset : State.reset.applyReset = State.reset := rfl

end Sys2Proof.Machine
end

