-- ==== Sys2Proof/Laws/Ops.lean ====
section
/-! SUPPORT. One lemma per shared operation that says once everything it can do; later proofs cite it and do not unfold
the operation. -/

namespace Sys2Proof.Machine

/-! ### Registers -/

theorem Reg.ofIndex_eq_none_iff (i : Nat) : Reg.ofIndex i = none ↔ 5 < i := by
  match i with
  | 0 | 1 | 2 | 3 | 4 | 5 => simp [Reg.ofIndex]
  | n + 6 => simp [Reg.ofIndex]

/-- An index checked: either it is valid and `next` runs with its register, or InvalidRegister is raised. -/
theorem withReg_cases (i : Nat) (s : State) (next : Reg → Result) :
    (∃ r, Reg.ofIndex i = some r ∧ withReg i s next = next r) ∨
      (5 < i ∧ withReg i s next = raise .invalidRegister s) := by
  cases h : Reg.ofIndex i with
  | none => exact Or.inr ⟨(Reg.ofIndex_eq_none_iff i).mp h, by simp [withReg, h]⟩
  | some r => exact Or.inl ⟨r, rfl, by simp [withReg, h]⟩

theorem withReg_of_some {i : Nat} {r : Reg} (h : Reg.ofIndex i = some r) (s : State) (next : Reg → Result) :
    withReg i s next = next r := by
  simp [withReg, h]

theorem withReg_of_gt {i : Nat} (h : 5 < i) (s : State) (next : Reg → Result) :
    withReg i s next = raise .invalidRegister s := by
  simp [withReg, (Reg.ofIndex_eq_none_iff i).mpr h]

/-- Two indices checked before anything else happens. -/
theorem withRegs_cases (i j : Nat) (s : State) (next : Reg → Reg → Result) :
    (∃ a b, Reg.ofIndex i = some a ∧ Reg.ofIndex j = some b ∧ withRegs i j s next = next a b) ∨
      ((5 < i ∨ 5 < j) ∧ withRegs i j s next = raise .invalidRegister s) := by
  rcases withReg_cases i s fun a => withReg j s fun b => next a b with ⟨a, ha, hi⟩ | ⟨hi, hr⟩
  · rcases withReg_cases j s fun b => next a b with ⟨b, hb, hj⟩ | ⟨hj, hr⟩
    · exact Or.inl ⟨a, b, ha, hb, hi.trans hj⟩
    · exact Or.inr ⟨Or.inr hj, hi.trans hr⟩
  · exact Or.inr ⟨Or.inl hi, hr⟩

theorem withRegs_of_some {i j : Nat} {a b : Reg} (ha : Reg.ofIndex i = some a) (hb : Reg.ofIndex j = some b)
    (s : State) (next : Reg → Reg → Result) : withRegs i j s next = next a b := by
  simp [withRegs, withReg, ha, hb]

/-! ### Memory -/

theorem readCell_eq_some_iff {s : State} {a : Nat} {v : Byte} :
    readCell s a = some v ↔ a < s.cfg.memSize ∧ Memory.read s.mem a = v := by
  simp [readCell]

theorem readCell_eq_none_iff {s : State} {a : Nat} : readCell s a = none ↔ s.cfg.memSize ≤ a := by
  simp [readCell]

theorem writeCell_eq_some_iff {s t : State} {a : Nat} {v : Byte} :
    writeCell s a v = some t ↔ a < s.cfg.memSize ∧ t = { s with mem := Memory.write s.mem a v } := by
  simp [writeCell, eq_comm]

theorem writeCell_eq_none_iff {s : State} {a : Nat} {v : Byte} : writeCell s a v = none ↔ s.cfg.memSize ≤ a := by
  simp [writeCell]

/-- A successful write of a cell keeps the store canonical. -/
theorem writeCell_keeps_wf {s t : State} {a : Nat} {v : Byte} (hw : Memory.wf s.mem = true)
    (h : writeCell s a v = some t) : Memory.wf t.mem = true := by
  obtain ⟨_, rfl⟩ := writeCell_eq_some_iff.mp h
  exact Memory.write_keeps_wf a v hw

/-- The store right after reset is canonical. -/
theorem reset_mem_wf : Memory.wf State.reset.mem = true := rfl

/-! ### Loading -/

/-- The loader writes a cell that exists and drops a byte whose cell does not. -/
theorem State.loadCell_cases (s : State) (a : Nat) (v : Byte) :
    (a < s.cfg.memSize ∧ s.loadCell a v = { s with mem := Memory.write s.mem a v }) ∨
      (s.cfg.memSize ≤ a ∧ s.loadCell a v = s) := by
  rcases Nat.lt_or_ge a s.cfg.memSize with h | h
  · exact Or.inl ⟨h, if_pos h⟩
  · exact Or.inr ⟨h, if_neg (Nat.not_lt.mpr h)⟩

theorem State.loadCell_keeps_wf {s : State} (a : Nat) (v : Byte) (hw : Memory.wf s.mem = true) :
    Memory.wf (s.loadCell a v).mem = true := by
  rcases s.loadCell_cases a v with ⟨_, h⟩ | ⟨_, h⟩
  · rw [h]
    exact Memory.write_keeps_wf a v hw
  · rw [h]
    exact hw

theorem State.loadImage_keeps_wf (bytes : List Byte) {s : State} (a : Nat) (hw : Memory.wf s.mem = true) :
    Memory.wf (s.loadImage a bytes).mem = true := by
  induction bytes generalizing s a with
  | nil => exact hw
  | cons v rest ih => exact ih (a + 1) (State.loadCell_keeps_wf a v hw)

theorem State.placeFetchBytes_keeps_wf {s : State} (b1 b2 : Byte) (hw : Memory.wf s.mem = true) :
    Memory.wf (s.placeFetchBytes b1 b2).mem = true :=
  State.loadCell_keeps_wf _ b2 (State.loadCell_keeps_wf _ b1 hw)

/-- No flat address lies beyond 4335 (20_memory.md R31). -/
theorem translateAddr_le (seg off : Byte) : translateAddr seg off ≤ 4335 := by
  have := seg.isLt
  have := off.isLt
  unfold translateAddr
  omega

/-- A data read: either its cell exists and `next` runs with its byte, or OutOfBounds is raised. -/
theorem withLoad_cases (off : Byte) (s : State) (next : Byte → Result) :
    (dataAddr s off < s.cfg.memSize ∧ withLoad off s next = next (Memory.read s.mem (dataAddr s off))) ∨
      (s.cfg.memSize ≤ dataAddr s off ∧ withLoad off s next = raise .outOfBounds s) := by
  rcases Nat.lt_or_ge (dataAddr s off) s.cfg.memSize with h | h
  · have hr := readCell_eq_some_iff.mpr ⟨h, rfl⟩
    exact Or.inl ⟨h, by simp only [withLoad, memReadSeg]; rw [show translateAddr (s.reg .ds) off = dataAddr s off from rfl, hr]⟩
  · have hr := readCell_eq_none_iff.mpr h
    exact Or.inr ⟨h, by simp only [withLoad, memReadSeg]; rw [show translateAddr (s.reg .ds) off = dataAddr s off from rfl, hr]⟩

/-- A data write: either its cell exists and changes alone, or OutOfBounds is raised. -/
theorem storeData_cases (off v : Byte) (s : State) :
    (dataAddr s off < s.cfg.memSize ∧
        storeData off v s = .next { s with mem := Memory.write s.mem (dataAddr s off) v }) ∨
      (s.cfg.memSize ≤ dataAddr s off ∧ storeData off v s = raise .outOfBounds s) := by
  rcases Nat.lt_or_ge (dataAddr s off) s.cfg.memSize with h | h
  · have hw := (writeCell_eq_some_iff (v := v)).mpr ⟨h, rfl⟩
    exact Or.inl ⟨h, by simp only [storeData, memWriteSeg]; rw [show translateAddr (s.reg .ds) off = dataAddr s off from rfl, hw]⟩
  · have hw := (writeCell_eq_none_iff (v := v)).mpr h
    exact Or.inr ⟨h, by simp only [storeData, memWriteSeg]; rw [show translateAddr (s.reg .ds) off = dataAddr s off from rfl, hw]⟩

/-! ### Arithmetic and compare -/

/-- A sum: either it fits 8 bits and `next` runs with it, or ArithmeticOverflow is raised. -/
theorem withSum_cases (a b : Byte) (s : State) (next : Byte → Result) :
    (a.toNat + b.toNat ≤ 0xFF ∧ withSum a b s next = next (BitVec.ofNat 8 (a.toNat + b.toNat))) ∨
      (0xFF < a.toNat + b.toNat ∧ withSum a b s next = raise .arithmeticOverflow s) := by
  rcases Nat.lt_or_ge 0xFF (a.toNat + b.toNat) with h | h
  · exact Or.inr ⟨h, by simp only [withSum, addChecked, if_pos h]⟩
  · exact Or.inl ⟨h, by simp only [withSum, addChecked, if_neg (Nat.not_lt.mpr h)]⟩

/-! ### Fetch, cycle and step -/

/-- The two fetch reads: either both cells exist and their bytes come, or nothing does. -/
theorem fetch_cases (s : State) :
    (fetchAddr1 s < s.cfg.memSize ∧ fetchAddr2 s < s.cfg.memSize ∧
        fetch s = some (Memory.read s.mem (fetchAddr1 s), Memory.read s.mem (fetchAddr2 s))) ∨
      ((s.cfg.memSize ≤ fetchAddr1 s ∨ s.cfg.memSize ≤ fetchAddr2 s) ∧ fetch s = none) := by
  rcases Nat.lt_or_ge (fetchAddr1 s) s.cfg.memSize with h1 | h1
  · have r1 := readCell_eq_some_iff.mpr ⟨h1, rfl⟩
    rcases Nat.lt_or_ge (fetchAddr2 s) s.cfg.memSize with h2 | h2
    · have r2 := readCell_eq_some_iff.mpr ⟨h2, rfl⟩
      exact Or.inl ⟨h1, h2, by simp only [fetch, r1, r2]⟩
    · have r2 := readCell_eq_none_iff.mpr h2
      exact Or.inr ⟨Or.inr h2, by simp only [fetch, r1, r2]⟩
  · have r1 := readCell_eq_none_iff.mpr h1
    exact Or.inr ⟨Or.inl h1, by simp only [fetch, r1]⟩

@[simp] theorem step_of_terminated {s : State} {r : Reason} (h : s.status = .terminated r) : step s = .next s := by
  simp [step, h]

/-- A cycle whose fetch fails ends there (R71). -/
theorem cycle_of_fetch_none {s : State} (h : fetch s = none) : cycle s = raise .outOfBounds s := by
  simp only [cycle, h]

/-- A cycle whose bytes decode executes with `ip` advanced (R72 to R74). -/
theorem cycle_of_decode {s : State} {b1 b2 : Byte} {i : Instr} (hf : fetch s = some (b1, b2))
    (hd : decode b1 b2 = .ok i) : cycle s = exec i (s.advanceIp i.length) := by
  simp only [cycle, hf, hd]

theorem step_of_running {s : State} (h : s.status = .running) : step s = cycle s := by
  simp [step, h]

end Sys2Proof.Machine
end

