-- ==== Sys2Proof/Laws/Exec.lean ====
section
/-! SUPPORT. What one executor can do, said once; and one step of a run. Later proofs take these apart and do not unfold
the sixteen meanings. -/

namespace Sys2Proof.Machine

/-- The effects an executor can have on a state: a raise that its row of R118 names, a destination register written, a
cell stored, flags compared, a transfer, or (a jmpe that is not taken) none. -/
inductive Effect (i : Instr) (s : State) : Result → Prop where
  | raised (r : Reason) (h : Raises i s r) : Effect i s (.next { s with status := .terminated r })
  | wrote (a : Reg) (v : Byte) (hw : WritesRegister i) (ha : Reg.ofIndex i.operand1 = some a) :
    Effect i s (.next (s.setReg a v))
  | stored (r1 r2 : Nat) (a b : Reg) (hi : i = .movmStore r1 r2) (ha : Reg.ofIndex r1 = some a)
    (hb : Reg.ofIndex r2 = some b) (hlt : dataAddr s (s.reg a) < s.cfg.memSize) :
    Effect i s (.next { s with mem := Memory.write s.mem (dataAddr s (s.reg a)) (s.reg b) })
  | compared (a b : Byte) (hi : i.opcode = .cmp) : Effect i s (.next (s.setFlags (compareBytes a b)))
  | near (v : Byte) (hi : i.opcode = .jmp ∨ (i.opcode = .jmpe ∧ s.flags = 0x00#8)) (hm : i.mode = false) :
    Effect i s (.next (s.setIp v))
  | far (v w : Byte) (hi : i.opcode = .jmp ∨ (i.opcode = .jmpe ∧ s.flags = 0x00#8)) (hm : i.mode = true) :
    Effect i s (.next ((s.setIp v).setReg .cs w))
  | notTaken (hi : i.opcode = .jmpe) (hf : s.flags ≠ 0x00#8) : Effect i s (.next s)

/-- One register index checked, then an effect. -/
theorem Effect.of_withReg {i : Instr} {s : State} {r1 : Nat} {next : Reg → Result}
    (hbad : 5 < r1 → Raises i s .invalidRegister)
    (hnext : ∀ a, Reg.ofIndex r1 = some a → Effect i s (next a)) : Effect i s (withReg r1 s next) := by
  rcases withReg_cases r1 s next with ⟨a, ha, h⟩ | ⟨hr, h⟩
  · exact h ▸ hnext a ha
  · exact h ▸ .raised _ (hbad hr)

/-- Two register indices checked, then an effect. -/
theorem Effect.of_withRegs {i : Instr} {s : State} {r1 r2 : Nat} {next : Reg → Reg → Result}
    (hbad : 5 < r1 ∨ 5 < r2 → Raises i s .invalidRegister)
    (hnext : ∀ a b, Reg.ofIndex r1 = some a → Reg.ofIndex r2 = some b → Effect i s (next a b)) :
    Effect i s (withRegs r1 r2 s next) := by
  rcases withRegs_cases r1 r2 s next with ⟨a, b, ha, hb, h⟩ | ⟨hr, h⟩
  · exact h ▸ hnext a b ha hb
  · exact h ▸ .raised _ (hbad hr)

/-- A sum checked, then an effect. -/
theorem Effect.of_withSum {i : Instr} {s : State} {a b : Byte} {next : Byte → Result}
    (hover : 0xFF < a.toNat + b.toNat → Raises i s .arithmeticOverflow)
    (hnext : ∀ v, Effect i s (next v)) : Effect i s (withSum a b s next) := by
  rcases withSum_cases a b s next with ⟨_, h⟩ | ⟨ho, h⟩
  · exact h ▸ hnext _
  · exact h ▸ .raised _ (hover ho)

theorem Reg.le_five_of_ofIndex {i : Nat} {r : Reg} (h : Reg.ofIndex i = some r) : i ≤ 5 := by
  by_contra hc
  rw [(Reg.ofIndex_eq_none_iff i).mpr (by omega)] at h
  exact absurd h (by simp)

/-- Every executor has one of these effects. -/
theorem exec_effect (i : Instr) (s : State) : Effect i s (exec i s) := by
  cases i with
  | jmpNear r1 => exact .of_withReg (fun h => ⟨rfl, h⟩) fun a _ => .near _ (.inl rfl) rfl
  | jmpFar r1 seg => exact .of_withReg (fun h => ⟨rfl, h⟩) fun a _ => .far _ _ (.inl rfl) rfl
  | movrReg r1 r2 => exact .of_withRegs (fun h => ⟨rfl, h⟩) fun a b ha _ => .wrote a _ (.inl rfl) ha
  | movrImm r1 imm => exact .of_withReg (fun h => ⟨rfl, h⟩) fun a ha => .wrote a _ (.inl rfl) ha
  | movmLoad r1 r2 =>
    refine .of_withRegs (fun h => .inl ⟨rfl, h⟩) fun a b ha hb => ?_
    rcases withLoad_cases (s.reg b) s fun v => .next (s.setReg a v) with ⟨_, h⟩ | ⟨ho, h⟩
    · exact h ▸ .wrote a _ (.inr (.inr (.inr ⟨rfl, rfl⟩))) ha
    · exact h ▸ .raised _ (.inr ⟨rfl, Reg.le_five_of_ofIndex ha, b, hb, ho⟩)
  | movmStore r1 r2 =>
    refine .of_withRegs (fun h => .inl ⟨rfl, h⟩) fun a b ha hb => ?_
    rcases storeData_cases (s.reg a) (s.reg b) s with ⟨hlt, h⟩ | ⟨ho, h⟩
    · exact h ▸ .stored r1 r2 a b rfl ha hb hlt
    · exact h ▸ .raised _ (.inr ⟨rfl, Reg.le_five_of_ofIndex hb, a, ha, ho⟩)
  | addReg r1 r2 =>
    exact .of_withRegs (fun h => .inl ⟨rfl, h⟩) fun a b ha hb =>
      .of_withSum (fun h => .inr ⟨rfl, a, b, ha, hb, h⟩) fun v => .wrote a v (.inr (.inl rfl)) ha
  | addImm r1 imm =>
    exact .of_withReg (fun h => .inl ⟨rfl, h⟩) fun a ha =>
      .of_withSum (fun h => .inr ⟨rfl, a, ha, h⟩) fun v => .wrote a v (.inr (.inl rfl)) ha
  | xorReg r1 r2 => exact .of_withRegs (fun h => ⟨rfl, h⟩) fun a b ha _ => .wrote a _ (.inr (.inr (.inl rfl))) ha
  | xorImm r1 imm => exact .of_withReg (fun h => ⟨rfl, h⟩) fun a ha => .wrote a _ (.inr (.inr (.inl rfl))) ha
  | cmpReg r1 r2 => exact .of_withRegs (fun h => ⟨rfl, h⟩) fun a b _ _ => .compared _ _ rfl
  | cmpImm r1 imm => exact .of_withReg (fun h => ⟨rfl, h⟩) fun a _ => .compared _ _ rfl
  | jmpeNear r1 =>
    by_cases hf : s.flags = 0x00#8
    · have hc : s.flagsEqual = true := by simp [State.flagsEqual, flagEqual, hf]
      simp only [exec, execJmpeNear, hc, if_true]
      exact .of_withReg (fun h => ⟨rfl, hf, h⟩) fun a _ => .near _ (.inr ⟨rfl, hf⟩) rfl
    · have hc : ¬ s.flagsEqual = true := by simp [State.flagsEqual, flagEqual, hf]
      simp only [exec, execJmpeNear, if_neg hc]
      exact .notTaken rfl hf
  | jmpeFar r1 r2 =>
    by_cases hf : s.flags = 0x00#8
    · have hc : s.flagsEqual = true := by simp [State.flagsEqual, flagEqual, hf]
      simp only [exec, execJmpeFar, hc, if_true]
      exact .of_withRegs (fun h => ⟨rfl, hf, h⟩) fun a b _ _ => .far _ _ (.inr ⟨rfl, hf⟩) rfl
    · have hc : ¬ s.flagsEqual = true := by simp [State.flagsEqual, flagEqual, hf]
      simp only [exec, execJmpeFar, if_neg hc]
      exact .notTaken rfl hf
  | hlt ignored1 => exact .raised _ rfl
  | hlt2 ignored1 ignored2 => exact .raised _ rfl

/-- A run of one step more. -/
theorem runFor_succ {s t : State} (k : Nat) (h : step s = .next t) : runFor (k + 1) s = runFor k t := by
  have h' : Sys2Proof.core.step s = .next t := h
  simp only [runFor, Host.Core.run, h']
  rfl

@[simp] theorem runFor_zero (s : State) : runFor 0 s = .next s := rfl

end Sys2Proof.Machine
end

