-- ==== Sys2Proof/Laws/PerInstr.lean ====
section
/-! SUPPORT. Statements for all instructions, one lemma per constructor. Family EncodedLength: the encoder writes as many
bytes as the length rule says (30_encoding.md R55). -/

namespace Sys2Proof.Laws.EncodedLength

/-- The instruction's encoding has the length of R55. -/
def Statement (i : Instr) : Prop := (encode i).length = i.length

theorem jmpNear (r1 : Nat) : Statement (.jmpNear r1) := rfl
theorem jmpFar (r1 : Nat) (seg : Byte) : Statement (.jmpFar r1 seg) := rfl
theorem movrReg (r1 r2 : Nat) : Statement (.movrReg r1 r2) := rfl
theorem movrImm (r1 : Nat) (imm : Byte) : Statement (.movrImm r1 imm) := rfl
theorem movmLoad (r1 r2 : Nat) : Statement (.movmLoad r1 r2) := rfl
theorem movmStore (r1 r2 : Nat) : Statement (.movmStore r1 r2) := rfl
theorem addReg (r1 r2 : Nat) : Statement (.addReg r1 r2) := rfl
theorem addImm (r1 : Nat) (imm : Byte) : Statement (.addImm r1 imm) := rfl
theorem xorReg (r1 r2 : Nat) : Statement (.xorReg r1 r2) := rfl
theorem xorImm (r1 : Nat) (imm : Byte) : Statement (.xorImm r1 imm) := rfl
theorem cmpReg (r1 r2 : Nat) : Statement (.cmpReg r1 r2) := rfl
theorem cmpImm (r1 : Nat) (imm : Byte) : Statement (.cmpImm r1 imm) := rfl
theorem jmpeNear (r1 : Nat) : Statement (.jmpeNear r1) := rfl
theorem jmpeFar (r1 r2 : Nat) : Statement (.jmpeFar r1 r2) := rfl
theorem hlt (ignored1 : Nat) : Statement (.hlt ignored1) := rfl
theorem hlt2 (ignored1 : Nat) (ignored2 : Byte) : Statement (.hlt2 ignored1 ignored2) := rfl

end Sys2Proof.Laws.EncodedLength
end

