-- ==== Sys2Proof/Machine/Render.lean ====
section
/-! DEFINITION. The assembler text of an instruction (30_encoding.md R62, R63). Nothing that executes reads it (R62); the
spellings beyond the source's two examples are the spec's decision D11 (UNVERIFIED, safe: log entry 17). -/

namespace Sys2Proof.Machine

/-- `r0` to `r3`, `cs`, `ds`; an invalid index n is spelled `r<n>` (R63). -/
def renderReg (i : Nat) : String :=
  if i = 4 then "cs" else if i = 5 then "ds" else "r" ++ Nat.repr i

/-- One hexadecimal digit, in capitals as R63's examples have it. -/
def renderHexDigit (n : Nat) : String :=
  if n < 10 then Nat.repr n
  else if n = 10 then "A"
  else if n = 11 then "B"
  else if n = 12 then "C"
  else if n = 13 then "D"
  else if n = 14 then "E"
  else "F"

/-- `$0x` and two hexadecimal digits (R62, R63). -/
def renderImm (v : Byte) : String :=
  "$0x" ++ renderHexDigit (v.toNat / 16) ++ renderHexDigit (v.toNat % 16)

/-- The text of an instruction (the table of R63). -/
def render : Instr → String
  | .jmpNear r1 => "jmp " ++ renderReg r1
  | .jmpFar r1 seg => "jmp " ++ renderImm seg ++ ":" ++ renderReg r1
  | .movrReg r1 r2 => "movr " ++ renderReg r1 ++ ", " ++ renderReg r2
  | .movrImm r1 imm => "movr " ++ renderReg r1 ++ ", " ++ renderImm imm
  | .movmLoad r1 r2 => "movm " ++ renderReg r1 ++ ", [ds:" ++ renderReg r2 ++ "]"
  | .movmStore r1 r2 => "movm [ds:" ++ renderReg r1 ++ "], " ++ renderReg r2
  | .addReg r1 r2 => "add " ++ renderReg r1 ++ ", " ++ renderReg r2
  | .addImm r1 imm => "add " ++ renderReg r1 ++ ", " ++ renderImm imm
  | .xorReg r1 r2 => "xor " ++ renderReg r1 ++ ", " ++ renderReg r2
  | .xorImm r1 imm => "xor " ++ renderReg r1 ++ ", " ++ renderImm imm
  | .cmpReg r1 r2 => "cmp " ++ renderReg r1 ++ ", " ++ renderReg r2
  | .cmpImm r1 imm => "cmp " ++ renderReg r1 ++ ", " ++ renderImm imm
  | .jmpeNear r1 => "jmpe " ++ renderReg r1
  | .jmpeFar r1 r2 => "jmpe " ++ renderReg r2 ++ ":" ++ renderReg r1
  | .hlt _ => "hlt"
  | .hlt2 _ _ => "hlt.2"

end Sys2Proof.Machine
end

