-- ==== Sys2Proof/Tests/Slice0.lean ====
section
/-! SUPPORT. Tests. Expected values are the spec's: its syntax table (30_encoding.md R63), its vectors (95_test_vectors.md, named
V-… and S… below) and its rules. Then one witness per statement that has hypotheses: a state and operands that meet them
all. -/

namespace Sys2Proof.Tests

open Sys2Proof Sys2Proof.Machine

/-! ### Well-formedness: an ill-formed term for each check, which the check refuses -/

theorem test_wellFormed_operand1_of_four_bits : (Instr.jmpNear 15).wellFormed = true ∧ (Instr.jmpNear 16).wellFormed = false := by decide
theorem test_wellFormed_operand1_with_immediate : (Instr.movrImm 16 0x05#8).wellFormed = false := by decide
theorem test_wellFormed_operand2_of_eight_bits : (Instr.movrReg 0 255).wellFormed = true ∧ (Instr.movrReg 0 256).wellFormed = false := by decide
theorem test_wellFormed_ignored_operand : (Instr.hlt 16).wellFormed = false ∧ (Instr.hlt2 16 0x00#8).wellFormed = false := by decide

/-! ### Decoding: one word a form, written from R50 to R54; V-E1, V-E2, V-E4, V-E6 -/

theorem test_decode_jmpNear : decode 0b00001111#8 0x80#8 = .ok (.jmpNear 15) := by decide
theorem test_decode_jmpFar : decode 0b00011111#8 0x80#8 = .ok (.jmpFar 15 0x80#8) := by decide
theorem test_decode_movrReg : decode 0b00100001#8 0x05#8 = .ok (.movrReg 1 5) := by decide
theorem test_decode_movrImm : decode 0b00110001#8 0x05#8 = .ok (.movrImm 1 0x05#8) := by decide
theorem test_decode_movmLoad : decode 0b01000000#8 0x01#8 = .ok (.movmLoad 0 1) := by decide
theorem test_decode_movmStore : decode 0b01010001#8 0x00#8 = .ok (.movmStore 1 0) := by decide
theorem test_decode_addReg : decode 0b01100001#8 0x02#8 = .ok (.addReg 1 2) := by decide
theorem test_decode_addImm : decode 0b01111011#8 0x2C#8 = .ok (.addImm 11 0x2C#8) := by decide
theorem test_decode_xorReg : decode 0b10000000#8 0xFF#8 = .ok (.xorReg 0 255) := by decide
theorem test_decode_xorImm : decode 0b10010000#8 0xAA#8 = .ok (.xorImm 0 0xAA#8) := by decide
theorem test_decode_cmpReg : decode 0b10100001#8 0x02#8 = .ok (.cmpReg 1 2) := by decide
theorem test_decode_cmpImm : decode 0b10110001#8 0x10#8 = .ok (.cmpImm 1 0x10#8) := by decide
theorem test_decode_jmpeNear : decode 0b11000010#8 0x77#8 = .ok (.jmpeNear 2) := by decide
theorem test_decode_jmpeFar : decode 0b11011001#8 0x77#8 = .ok (.jmpeFar 9 119) := by decide
theorem test_decode_hlt : decode 0b11101111#8 0x00#8 = .ok (.hlt 15) := by decide
theorem test_decode_hlt2 : decode 0b11111111#8 0xFF#8 = .ok (.hlt2 15 0xFF#8) := by decide

theorem test_encode_movrReg : encode (.movrReg 1 5) = [0x21#8, 0x05#8] := by decide
theorem test_encode_jmpeFar : encode (.jmpeFar 0 1) = [0xD0#8, 0x01#8] := by decide
theorem test_encode_hlt : encode (.hlt 0) = [0xE0#8] := by decide

theorem test_decodeBytes_one_byte_form_leaves_byte2 : decodeBytes [0xC2#8, 0x71#8, 0x01#8] = .ok (.jmpeNear 2, [0x71#8, 0x01#8]) := by decide
theorem test_decodeBytes_rejects_no_byte : decodeBytes [] = .error .noByte1 := by decide
theorem test_decodeBytes_rejects_missing_byte2 : decodeBytes [0x31#8] = .error .noByte2 := by decide
theorem test_decodeTableWord_byte2_in_high_bits : decodeTableWord 16 0x0210 = some (.jmpFar 0 0x02#8) := by decide
theorem test_decodeTableWord_bits_above_nbits_are_zero : decodeTableWord 8 0xFF31 = some (.movrImm 1 0x00#8) := by decide

/-- R63's table, and its spelling of an invalid index. -/
theorem test_render_syntax_table :
    render (.jmpNear 1) = "jmp r1" ∧ render (.jmpFar 0 0x02#8) = "jmp $0x02:r0" ∧ render (.movrReg 1 5) = "movr r1, ds" ∧
    render (.movrImm 0 0x05#8) = "movr r0, $0x05" ∧ render (.movmLoad 0 1) = "movm r0, [ds:r1]" ∧
    render (.movmStore 1 0) = "movm [ds:r1], r0" ∧ render (.addReg 1 2) = "add r1, r2" ∧
    render (.addImm 1 0x05#8) = "add r1, $0x05" ∧ render (.xorReg 0 0) = "xor r0, r0" ∧
    render (.xorImm 0 0xAA#8) = "xor r0, $0xAA" ∧ render (.cmpReg 1 2) = "cmp r1, r2" ∧
    render (.cmpImm 1 0x05#8) = "cmp r1, $0x05" ∧ render (.jmpeNear 2) = "jmpe r2" ∧
    render (.jmpeFar 0 1) = "jmpe r1:r0" ∧ render (.hlt 0) = "hlt" ∧ render (.hlt2 0 0x00#8) = "hlt.2" ∧
    render (.jmpeFar 9 119) = "jmpe r119:r9" ∧ render (.movrReg 4 6) = "movr cs, r6" := by decide

/-! ### Memory -/

theorem test_write_keeps_addresses_rising :
    Memory.write (Memory.write [] 5 0x01#8) 3 0x02#8 = [(3, 0x02#8), (5, 0x01#8)] := by decide
theorem test_write_of_the_unlisted_byte_removes_the_entry :
    Memory.write [(3, 0x02#8), (5, 0x01#8)] 3 0x00#8 = [(5, 0x01#8)] := by decide
theorem test_wf_refuses_a_listed_unlisted_byte : Memory.wf [(3, 0x00#8)] = false := by decide
theorem test_wf_refuses_falling_addresses : Memory.wf [(5, 0x01#8), (3, 0x02#8)] = false := by decide
theorem test_highest_flat_address : translateAddr 0xFF#8 0xFF#8 = 4335 := by decide

/-! ### One step a form -/

/-- Registers in the order of the vectors: r0 r1 r2 r3 cs ds. -/
def regs (r0 r1 r2 r3 cs ds : Byte) : RegFile := ⟨r0, r1, r2, r3, cs, ds⟩

/-- A running machine of 4336 cells with bytes loaded at a flat address. -/
def machine (r : RegFile) (ip flags : Byte) (a : Nat) (bytes : List Byte) : State :=
  State.loadImage ⟨⟨4336⟩, r, ip, flags, .running, []⟩ a bytes

/-- The same with another size of the store. -/
def small (size : Nat) (r : RegFile) (ip flags : Byte) (bytes : List Byte) : State :=
  State.loadImage ⟨⟨size⟩, r, ip, flags, .running, []⟩ 0 bytes

/-- What the vectors look at after one step: registers, ip, flags, status. -/
def seen (s : State) : Option (RegFile × Byte × Byte × Status) :=
  match step s with
  | .next t => some (t.regs, t.ip, t.flags, t.status)
  | .fault _ => none
  | .refused _ => none

/-- The byte at a flat address after one step. -/
def cellAfter (s : State) (a : Nat) : Option Byte :=
  match step s with
  | .next t => readCell t a
  | .fault _ => none
  | .refused _ => none

/-- V-J1 -/
theorem test_jmpNear_goes_to_the_register_value :
    seen (machine (regs 0x00 0x00 0x00 0x08 0x00 0x10) 0x0F#8 0x00#8 0x0F [0x03#8])
      = some (regs 0x00 0x00 0x00 0x08 0x00 0x10, 0x08#8, 0x00#8, .running) := by decide
/-- V-R1 -/
theorem test_jmpNear_invalid_register :
    seen (machine (regs 0x00 0x00 0x00 0x00 0x00 0x10) 0x00#8 0x00#8 0 [0x06#8])
      = some (regs 0x00 0x00 0x00 0x00 0x00 0x10, 0x01#8, 0x00#8, .terminated .invalidRegister) := by decide
/-- V-J2 -/
theorem test_jmpFar_writes_ip_and_cs :
    seen (machine (regs 0x00 0x00 0x00 0x00 0x00 0x10) 0x00#8 0x00#8 0 [0x10#8, 0x02#8])
      = some (regs 0x00 0x00 0x00 0x00 0x02 0x10, 0x00#8, 0x00#8, .running) := by decide
/-- V-J3 -/
theorem test_jmpFar_reads_the_old_cs :
    seen (machine (regs 0x00 0x00 0x00 0x00 0x05 0x10) 0x00#8 0x00#8 0x50 [0x14#8, 0x07#8])
      = some (regs 0x00 0x00 0x00 0x00 0x07 0x10, 0x05#8, 0x00#8, .running) := by decide
/-- V-J6 -/
theorem test_jmpeNear_not_taken_checks_no_index :
    seen (machine (regs 0x00 0x00 0x00 0x00 0x00 0x10) 0x00#8 0x01#8 0 [0xC9#8])
      = some (regs 0x00 0x00 0x00 0x00 0x00 0x10, 0x01#8, 0x01#8, .running) := by decide
/-- V-J12 -/
theorem test_jmpeNear_not_taken_wraps_ip :
    seen (machine (regs 0x00 0x00 0x00 0x00 0x00 0x10) 0xFF#8 0xFF#8 0xFF [0xC0#8])
      = some (regs 0x00 0x00 0x00 0x00 0x00 0x10, 0x00#8, 0xFF#8, .running) := by decide
/-- V-J8 -/
theorem test_jmpeFar_takes_the_segment_from_a_register :
    seen (machine (regs 0x04 0x03 0x00 0x00 0x00 0x10) 0x04#8 0x00#8 4 [0xD0#8, 0x01#8])
      = some (regs 0x04 0x03 0x00 0x00 0x03 0x10, 0x04#8, 0x00#8, .running) := by decide
/-- V-J10 -/
theorem test_jmpeFar_invalid_segment_register_writes_nothing :
    seen (machine (regs 0x33 0x00 0x00 0x00 0x00 0x10) 0x00#8 0x00#8 0 [0xD0#8, 0x06#8])
      = some (regs 0x33 0x00 0x00 0x00 0x00 0x10, 0x02#8, 0x00#8, .terminated .invalidRegister) := by decide
/-- V-M1: the bytes the source prints for its scenario (90_conflicts.md C1) -/
theorem test_movrReg_reads_ds :
    seen (machine (regs 0x00 0x00 0x00 0x00 0x00 0x10) 0x00#8 0x00#8 0 [0x21#8, 0x05#8])
      = some (regs 0x00 0x10 0x00 0x00 0x00 0x10, 0x02#8, 0x00#8, .running) := by decide
/-- V-M4 -/
theorem test_movrReg_index_is_the_whole_byte :
    seen (machine (regs 0x00 0x00 0x00 0x00 0x00 0x10) 0x00#8 0x00#8 0 [0x20#8, 0x10#8])
      = some (regs 0x00 0x00 0x00 0x00 0x00 0x10, 0x02#8, 0x00#8, .terminated .invalidRegister) := by decide
/-- V-M3 -/
theorem test_movrImm_may_write_cs :
    seen (machine (regs 0x00 0x00 0x00 0x00 0x00 0x10) 0x00#8 0x00#8 0 [0x34#8, 0x02#8])
      = some (regs 0x00 0x00 0x00 0x00 0x02 0x10, 0x02#8, 0x00#8, .running) := by decide
/-- V-M5 -/
theorem test_movrImm_byte2_wraps_in_the_segment :
    seen ((machine (regs 0x00 0x00 0x00 0x00 0x00 0x10) 0xFF#8 0x00#8 0xFF [0x31#8]).loadCell 0 0x42#8)
      = some (regs 0x00 0x42 0x00 0x00 0x00 0x10, 0x01#8, 0x00#8, .running) := by decide
/-- V-M8 -/
theorem test_movmLoad_into_ds_uses_the_old_ds :
    seen ((machine (regs 0x00 0x00 0x00 0x00 0x00 0x10) 0x00#8 0x00#8 0 [0x45#8, 0x00#8]).loadCell 0x100 0x20#8)
      = some (regs 0x00 0x00 0x00 0x00 0x00 0x20, 0x02#8, 0x00#8, .running) := by decide
/-- V-M13 -/
theorem test_movmLoad_invalid_register_before_out_of_bounds :
    seen (small 0x100 (regs 0x00 0x00 0x00 0x00 0x00 0x10) 0x00#8 0x00#8 [0x46#8, 0x00#8])
      = some (regs 0x00 0x00 0x00 0x00 0x00 0x10, 0x02#8, 0x00#8, .terminated .invalidRegister) := by decide
/-- V-M10 -/
theorem test_movmStore_offset_from_operand1_value_from_operand2 :
    cellAfter (machine (regs 0xAB 0x10 0x00 0x00 0x00 0x00) 0x00#8 0x00#8 0 [0x51#8, 0x00#8]) 0x10 = some 0xAB#8 := by decide
/-- V-M12 -/
theorem test_movmStore_out_of_bounds :
    seen (small 0x100 (regs 0x00 0x00 0x00 0x00 0x00 0x10) 0x00#8 0x00#8 [0x51#8, 0x00#8])
      = some (regs 0x00 0x00 0x00 0x00 0x00 0x10, 0x02#8, 0x00#8, .terminated .outOfBounds) := by decide
/-- V-A3 -/
theorem test_addReg_doubles_a_register :
    seen (machine (regs 0x7F 0x00 0x00 0x00 0x00 0x10) 0x00#8 0x00#8 0 [0x60#8, 0x00#8])
      = some (regs 0xFE 0x00 0x00 0x00 0x00 0x10, 0x02#8, 0x00#8, .running) := by decide
/-- S6 -/
theorem test_addReg_overflow :
    seen (machine (regs 0x00 0xF0 0x20 0x00 0x00 0x10) 0x00#8 0x00#8 0 [0x61#8, 0x02#8])
      = some (regs 0x00 0xF0 0x20 0x00 0x00 0x10, 0x02#8, 0x00#8, .terminated .arithmeticOverflow) := by decide
/-- V-A5 -/
theorem test_addImm_up_to_255 :
    seen (machine (regs 0x00 0x00 0x00 0x00 0x00 0x10) 0x00#8 0x00#8 0 [0x70#8, 0xFF#8])
      = some (regs 0xFF 0x00 0x00 0x00 0x00 0x10, 0x02#8, 0x00#8, .running) := by decide
/-- V-A6 -/
theorem test_addImm_never_wraps :
    seen (machine (regs 0x01 0x00 0x00 0x00 0x00 0x10) 0x00#8 0x00#8 0 [0x70#8, 0xFF#8])
      = some (regs 0x01 0x00 0x00 0x00 0x00 0x10, 0x02#8, 0x00#8, .terminated .arithmeticOverflow) := by decide
/-- V-A8 -/
theorem test_xorReg :
    seen (machine (regs 0x12 0xAA 0x00 0x00 0x00 0x10) 0x00#8 0x00#8 0 [0x80#8, 0x01#8])
      = some (regs 0xB8 0xAA 0x00 0x00 0x00 0x10, 0x02#8, 0x00#8, .running) := by decide
/-- V-A11 -/
theorem test_xorImm :
    seen (machine (regs 0x78 0x00 0x00 0x00 0x00 0x10) 0x00#8 0x00#8 0 [0x90#8, 0xAA#8])
      = some (regs 0xD2 0x00 0x00 0x00 0x00 0x10, 0x02#8, 0x00#8, .running) := by decide
/-- V-C3 -/
theorem test_cmpReg_is_unsigned :
    seen (machine (regs 0x80 0x7F 0x00 0x00 0x00 0x10) 0x00#8 0x00#8 0 [0xA0#8, 0x01#8])
      = some (regs 0x80 0x7F 0x00 0x00 0x00 0x10, 0x02#8, 0x01#8, .running) := by decide
/-- V-C7 -/
theorem test_cmpReg_invalid_register_keeps_flags :
    seen (machine (regs 0x00 0x00 0x00 0x00 0x00 0x10) 0x00#8 0x01#8 0 [0xA0#8, 0x07#8])
      = some (regs 0x00 0x00 0x00 0x00 0x00 0x10, 0x02#8, 0x01#8, .terminated .invalidRegister) := by decide
/-- V-C5 -/
theorem test_cmpImm_less :
    seen (machine (regs 0xFE 0x00 0x00 0x00 0x00 0x10) 0x00#8 0x00#8 0 [0xB0#8, 0xFF#8])
      = some (regs 0xFE 0x00 0x00 0x00 0x00 0x10, 0x02#8, 0xFF#8, .running) := by decide
/-- V-C4 -/
theorem test_cmpImm_equal :
    seen (machine (regs 0x00 0x00 0x00 0x00 0x00 0x10) 0x00#8 0x01#8 0 [0xB0#8, 0x00#8])
      = some (regs 0x00 0x00 0x00 0x00 0x00 0x10, 0x02#8, 0x00#8, .running) := by decide
/-- V-H1 -/
theorem test_hlt_reports_flags_and_ignores_operand1 :
    seen (machine (regs 0x00 0x00 0x00 0x00 0x00 0x10) 0x00#8 0xFF#8 0 [0xEF#8])
      = some (regs 0x00 0x00 0x00 0x00 0x00 0x10, 0x01#8, 0xFF#8, .terminated (.programHalted 0xFF#8)) := by decide
/-- V-H3 -/
theorem test_hlt_in_the_last_cell_is_out_of_bounds :
    seen (small 1 (regs 0x00 0x00 0x00 0x00 0x00 0x10) 0x00#8 0x00#8 [0xE0#8])
      = some (regs 0x00 0x00 0x00 0x00 0x00 0x10, 0x00#8, 0x00#8, .terminated .outOfBounds) := by decide
/-- V-H2 -/
theorem test_hlt2_advances_by_two :
    seen (machine (regs 0x00 0x00 0x00 0x00 0x00 0x10) 0x00#8 0x01#8 0 [0xFF#8, 0xFF#8])
      = some (regs 0x00 0x00 0x00 0x00 0x00 0x10, 0x02#8, 0x01#8, .terminated (.programHalted 0x01#8)) := by decide
/-- The word of R63's `movr r0, $0x05`, placed at reset: S11. -/
theorem test_withFetchWord_runs_as_the_first_instruction :
    seen (State.reset.withFetchWord 16 0x0530)
      = some (regs 0x05 0x00 0x00 0x00 0x00 0x10, 0x02#8, 0x00#8, .running) := by decide

/-! ### Witnesses: each statement's hypotheses are met together -/

/-- A state off the reset path: flags Less, cells listed at both ends of the store, running. -/
def busy : State :=
  ⟨⟨4336⟩, regs 0x01 0x02 0x80 0x80 0x05 0xFF, 0x10#8, 0xFF#8, .running, [(0, 0x5A#8), (0x60, 0x51#8), (4335, 0xC3#8)]⟩

/-- A state that has halted with flags Greater. -/
def halted : State :=
  ⟨⟨0x200⟩, regs 0x01 0x02 0x80 0x80 0x00 0x10, 0x10#8, 0x01#8, .terminated (.programHalted 0x01#8), [(0x1FF, 0x01#8)]⟩

theorem witness_DecodeInvertsEncode : (Instr.jmpeFar 15 255).wellFormed = true ∧ (Instr.hlt 15).wellFormed = true := by decide

theorem witness_EncodeInvertsDecode :
    decodeBytes [0xEF#8] = .ok (.hlt 15, []) ∧ decodeBytes [0x3F#8, 0xFF#8, 0x00#8] = .ok (.movrImm 15 0xFF#8, [0x00#8]) ∧
    decodeBytes [0xC0#8, 0xFF#8] = .ok (.jmpeNear 0, [0xFF#8]) := by decide

theorem witness_LengthRule :
    decode 0xEF#8 0x00#8 = .ok (.hlt 15) ∧ decode 0xF0#8 0x00#8 = .ok (.hlt2 0 0x00#8) ∧
    decode 0x0F#8 0x00#8 = .ok (.jmpNear 15) ∧ decode 0x10#8 0x00#8 = .ok (.jmpFar 0 0x00#8) ∧
    decode 0xC0#8 0x00#8 = .ok (.jmpeNear 0) ∧ decode 0xD0#8 0x00#8 = .ok (.jmpeFar 0 0) := by decide

/-- The fetch that fails: on byte 2 alone (V-H3), on byte 1 alone (byte 2 wraps to offset 0), on both. -/
theorem witness_ByteTwoIsFetchedForEveryInstruction_fault :
    (∃ s : State, s.status = .running ∧ fetch s = none ∧ fetchAddr1 s < s.cfg.memSize ∧ fetchAddr2 s = s.cfg.memSize) ∧
    (∃ s : State, s.status = .running ∧ fetch s = none ∧ fetchAddr1 s = s.cfg.memSize ∧ fetchAddr2 s < s.cfg.memSize) ∧
    (∃ s : State, s.status = .running ∧ fetch s = none ∧ fetchAddr1 s = s.cfg.memSize ∧ s.cfg.memSize < fetchAddr2 s) :=
  ⟨⟨small 1 (regs 0x00 0x00 0x00 0x00 0x00 0x10) 0x00#8 0x00#8 [0xE0#8], by decide⟩,
    ⟨small 0xFF (regs 0x00 0x00 0x00 0x00 0x00 0x10) 0xFF#8 0x00#8 [0xE0#8], by decide⟩,
    ⟨small 1 (regs 0x00 0x00 0x00 0x00 0x00 0x10) 0x01#8 0x00#8 [0xE0#8], by decide⟩⟩

theorem witness_ByteTwoIsFetchedForEveryInstruction_one_byte_forms :
    (decode 0x0F#8 0xFF#8 = .ok (.jmpNear 15) ∧ (Instr.jmpNear 15).length = 1) ∧
    (∃ s : State, s.status = .running ∧ fetch s = some (0xC9#8, 0x77#8) ∧ decode 0xC9#8 0x77#8 = .ok (.jmpeNear 9) ∧
      s.flags ≠ 0x00#8) :=
  ⟨by decide, ⟨machine (regs 0x00 0x00 0x00 0x00 0x00 0x10) 0x00#8 0x01#8 0 [0xC9#8, 0x77#8], by decide⟩⟩

theorem witness_RegisterReadAfterWrite :
    (5 : Nat) ≤ 5 ∧ (4 : Nat) ≠ 5 ∧ Reg.ofIndex 4 = some .cs ∧ (5 : Nat) < 6 := by decide

theorem witness_IndexedRegisterSpace : (5 : Nat) < 6 := by decide

theorem busy_inv : busy.Inv :=
  ⟨Or.inr (Or.inl rfl), by decide, by decide, by decide, fun _ h => nomatch h⟩

theorem halted_inv : halted.Inv :=
  ⟨Or.inr (Or.inr rfl), by decide, by decide, by decide, fun f h => by
    simp only [halted, Status.terminated.injEq, Reason.programHalted.injEq] at h ⊢
    exact h.symm⟩

theorem witness_ResetMeetsInvariant :
    (∃ (cfg : Config) (mem : Memory), Memory.wf mem = true ∧ (∀ c ∈ mem, c.1 < cfg.memSize) ∧ mem ≠ []) ∧ halted.Inv :=
  ⟨⟨⟨0x200⟩, [(0x1FF, 0x01#8)], by decide⟩, halted_inv⟩

theorem witness_FirstCycleFetchesFlatZero :
    2 ≤ (Config.mk 2).memSize ∧ (Config.mk 1).memSize < 2 := by decide

theorem witness_StoreLaw :
    (4335 < (Config.mk 4336).memSize) ∧
    (Memory.wf busy.mem = true ∧ ∃ t, writeCell busy 4335 0x00#8 = some t) ∧
    (∃ s t : State, step s = .next t ∧ t.mem ≠ s.mem) :=
  ⟨by decide, ⟨by decide, _, rfl⟩,
    machine (regs 0xAB 0x10 0x00 0x00 0x00 0x00) 0x00#8 0x00#8 0 [0x51#8, 0x00#8], _, rfl, by decide⟩

theorem witness_MemoryPort :
    (Memory.wf busy.mem = true ∧ (0xFF#8 : Byte).toNat * 16 + (0xFF#8 : Byte).toNat < busy.cfg.memSize) ∧
    halted.cfg.memSize ≤ (0x20#8 : Byte).toNat * 16 + (0x00#8 : Byte).toNat := by decide

theorem witness_CanonicalStoresThatReadAlikeAreEqual :
    ∃ m n : Memory, Memory.wf m = true ∧ Memory.wf n = true ∧ (∀ x, Memory.read m x = Memory.read n x) ∧ m ≠ [] :=
  ⟨[(3, 0x02#8)], Memory.write (Memory.write [] 3 0x02#8) 7 0x00#8, by decide, by decide, fun _ => rfl, by decide⟩

theorem witness_PairsWithOneFlatAddressAreOneCell :
    (Memory.wf busy.mem = true ∧ (∃ t, memWriteSeg busy 0x00#8 0x10#8 0xAB#8 = some t) ∧
      (0x00#8 : Byte).toNat * 16 + (0x10#8 : Byte).toNat = (0x01#8 : Byte).toNat * 16 + (0x00#8 : Byte).toNat ∧
      (0x00#8 : Byte).toNat * 16 + (0x10#8 : Byte).toNat ≠ (0x00#8 : Byte).toNat * 16 + (0x11#8 : Byte).toNat) ∧
    ((0xFE#8 : Byte).toNat + 1 ≤ 255 ∧ 16 ≤ (0x10#8 : Byte).toNat) :=
  ⟨⟨by decide, ⟨_, rfl⟩, by decide, by decide⟩, by decide⟩

theorem witness_LoadAfterStoreRoundTrips :
    Memory.wf busy.mem = true ∧ Reg.ofIndex 1 = some .r1 ∧ Reg.ofIndex 4 = some .cs ∧ Reg.ofIndex 5 = some .ds ∧
    ∃ t, exec (.movmStore 1 4) busy = .next t ∧ t.status = .running :=
  ⟨by decide, by decide, by decide, by decide, _, rfl, rfl⟩

theorem witness_LoadedImageLiesInTheStore :
    Memory.wf halted.mem = true ∧ [0x11#8, 0x22#8][1]? = some (0x22#8 : Byte) ∧ 0x1FE + 1 < halted.cfg.memSize := by decide

theorem witness_StepRunsTheDecodedInstruction :
    ∃ s : State, s.status = .running ∧ readCell s (s.regs.cs.toNat * 16 + s.ip.toNat) = some 0x31#8 ∧
      readCell s (s.regs.cs.toNat * 16 + (s.ip.toNat + 1) % 256) = some 0x42#8 ∧
      decode 0x31#8 0x42#8 = .ok (.movrImm 1 0x42#8) ∧ s.ip = 0xFF#8 :=
  ⟨(machine (regs 0x00 0x00 0x00 0x00 0x00 0x10) 0xFF#8 0x00#8 0xFF [0x31#8]).loadCell 0 0x42#8, by decide⟩

theorem witness_TerminationIsFinal :
    halted.status = .terminated (.programHalted 0x01#8) ∧
    ∃ s t : State, s.status = .running ∧ runFor 1 s = .next t ∧ t.status = .terminated (.programHalted 0x00#8) ∧ 1 ≤ 1 :=
  ⟨rfl, machine (regs 0x00 0x00 0x00 0x00 0x00 0x10) 0x00#8 0x00#8 0 [0xE0#8], _, rfl, rfl, rfl, le_refl 1⟩

theorem witness_StepKeepsInvariant : busy.Inv ∧ ∃ t, step busy = .next t := ⟨busy_inv, _, rfl⟩

theorem witness_EveryRunKeepsInvariant : busy.Inv := busy_inv

theorem witness_TerminationIsPrecise_in_fetch :
    ∃ s t : State, s.status = .running ∧ step s = .next t ∧ t.status = .terminated .outOfBounds ∧ fetch s = none :=
  ⟨small 1 (regs 0x00 0x00 0x00 0x00 0x00 0x10) 0x00#8 0x00#8 [0xE0#8], _, rfl, rfl, rfl, rfl⟩

theorem witness_TerminationIsPrecise_in_execute :
    ∃ s t : State, s.status = .running ∧ step s = .next t ∧ t.status = .terminated .arithmeticOverflow :=
  ⟨machine (regs 0x00 0xF0 0x20 0x00 0x00 0x10) 0x00#8 0x00#8 0 [0x61#8, 0x02#8], _, rfl, rfl, rfl⟩

/-- One witness per reason: an index, an address and a sum each just beyond the last that is allowed, and a halt. -/
theorem witness_WhichFormRaisesWhat_raises :
    Raises (.movmLoad 5 6) busy .invalidRegister ∧
    Raises (.movmStore 0 5) { busy with cfg := ⟨0xFF1⟩ } .outOfBounds ∧
    Raises (.addImm 0 0xFF#8) busy .arithmeticOverflow ∧
    Raises (.hlt2 15 0xFF#8) busy (.programHalted 0xFF#8) :=
  ⟨.inl ⟨rfl, .inr (by decide)⟩, .inr ⟨rfl, by decide, .r0, rfl, by unfold DataOutOfBounds; decide⟩,
    .inr ⟨rfl, .r0, rfl, by decide⟩, rfl⟩

theorem witness_WhichFormRaisesWhat_completes :
    (∀ r, ¬ Raises (.movrReg 5 5) busy r) ∧ (∀ r, ¬ Raises (.addImm 0 0xFE#8) busy r) ∧
    (∀ r, ¬ Raises (.jmpeFar 15 255) busy r) :=
  ⟨fun _ h => by simp [Raises] at h,
    fun r h => by
      rcases h with ⟨_, h⟩ | ⟨_, a, ha, h⟩
      · exact absurd h (by decide)
      · rw [show a = .r0 from (Option.some.inj ha).symm] at h
        exact absurd h (by decide),
    fun r h => by exact absurd h.2.1 (by decide)⟩

theorem witness_InvalidOpcodeIsUnreachable :
    ∃ s t : State, step s = .next t ∧ t.status = .terminated .invalidOpcode :=
  ⟨{ busy with status := .terminated .invalidOpcode }, _, rfl, rfl⟩

theorem witness_OutOfBoundsNeedsASmallStore :
    (4336 ≤ busy.cfg.memSize ∧ busy.status = .running ∧ ∃ t, step busy = .next t) ∧
    (∃ s : State, s.cfg.memSize = 4335 ∧ s.cfg.memSize < 4336 ∧ s.status = .running ∧ s.regs.cs = 0xFF#8 ∧ s.ip = 0xFF#8) :=
  ⟨⟨by decide, rfl, _, rfl⟩, small 4335 (regs 0x00 0x00 0x00 0x00 0xFF 0x10) 0xFF#8 0x00#8 [], by decide⟩

theorem witness_OnlyHltEndsARunSuccessfully :
    ∃ s t : State, s.status = .running ∧ step s = .next t ∧ t.Successful :=
  ⟨machine (regs 0x00 0x00 0x00 0x00 0x00 0x10) 0x00#8 0xFF#8 0 [0xEF#8], _, rfl, rfl, 0xFF#8, rfl⟩

theorem witness_WhoWritesWhat_ip : ∃ t, exec (.jmpNear 2) busy = .next t ∧ t.ip ≠ busy.ip := ⟨_, rfl, by decide⟩
theorem witness_WhoWritesWhat_flags : ∃ t, exec (.cmpReg 2 0) busy = .next t ∧ t.flags ≠ busy.flags := ⟨_, rfl, by decide⟩
theorem witness_WhoWritesWhat_mem : ∃ t, exec (.movmStore 0 1) busy = .next t ∧ t.mem ≠ busy.mem := ⟨_, rfl, by decide⟩
theorem witness_WhoWritesWhat_ds :
    ∃ t, exec (.movrImm 5 0x00#8) busy = .next t ∧ Reg.ds ≠ .cs ∧ t.reg .ds ≠ busy.reg .ds := ⟨_, rfl, by decide⟩
theorem witness_WhoWritesWhat_cs : ∃ t, exec (.jmpFar 0 0x06#8) busy = .next t ∧ t.reg .cs ≠ busy.reg .cs := ⟨_, rfl, by decide⟩

/-- The store of program P4: the data window overlays the code, and the stored cell is byte 2 of the next instruction. -/
theorem witness_StoreIsSeenByTheNextFetch :
    ∃ s : State, s.status = .running ∧ Memory.wf s.mem = true ∧ fetch s = some (0x51#8, 0x00#8) ∧
      decode 0x51#8 0x00#8 = .ok (.movmStore 1 0) ∧ Reg.ofIndex 1 = some .r1 ∧ Reg.ofIndex 0 = some .r0 ∧
      dataAddr s (s.reg .r1) < s.cfg.memSize ∧ dataAddr s (s.reg .r1) = fetchAddr2 (s.advanceIp 2) :=
  ⟨machine (regs 0x77 0x09 0x00 0x00 0x00 0x00) 0x06#8 0x00#8 6 [0x51#8, 0x00#8, 0x32#8, 0x00#8, 0xE0#8], by decide⟩

theorem witness_CellsNotReachedDoNotMatter :
    ∃ (s t : State) (m : Memory), Memory.wf s.mem = true ∧ Memory.wf m = true ∧ m ≠ s.mem ∧
      Memory.read m (fetchAddr1 s) = Memory.read s.mem (fetchAddr1 s) ∧
      Memory.read m (fetchAddr2 s) = Memory.read s.mem (fetchAddr2 s) ∧
      (∀ off, Memory.read m (dataAddr s off) = Memory.read s.mem (dataAddr s off)) ∧ step s = .next t :=
  ⟨halted, halted, [(0x1FF, 0x01#8), (0x200, 0x7E#8)], by decide, by decide, by decide, by decide, by decide, by decide, rfl⟩

theorem witness_PlacedWordIsTheNextInstruction :
    Memory.wf busy.mem = true ∧ fetchAddr1 busy < busy.cfg.memSize ∧ fetchAddr2 busy < busy.cfg.memSize ∧
    decodeTableWord 16 0xFFFF = some (.hlt2 15 0xFF#8) := by decide

/-- The hypotheses of the rules of single forms: an encoding with the largest operand1, the last valid index, the first
invalid one, a flags value that is Equal and one that is not. -/
theorem witness_rules_of_single_forms :
    (15 : Nat) < 16 ∧ Reg.ofIndex 5 = some .ds ∧ Reg.ofIndex 0 = some .r0 ∧ (5 : Nat) < 6 ∧ (5 < 0 ∨ 5 < 6) ∧
    State.reset.flags = 0x00#8 ∧ busy.flags ≠ 0x00#8 := by decide

/-- movm at the last cell of the store and at the first address beyond it. -/
theorem witness_MovmLoadRule_and_MovmStoreRule :
    (∃ s : State, Memory.wf s.mem = true ∧ Reg.ofIndex 0 = some .r0 ∧ Reg.ofIndex 5 = some .ds ∧
      s.regs.ds.toNat * 16 + (s.reg .r0).toNat < s.cfg.memSize ∧ s.regs.ds.toNat * 16 + (s.reg .r0).toNat + 1 = s.cfg.memSize) ∧
    (∃ s : State, (5 : Nat) ≤ 5 ∧ Reg.ofIndex 0 = some .r0 ∧ s.cfg.memSize ≤ s.regs.ds.toNat * 16 + (s.reg .r0).toNat ∧
      s.regs.ds.toNat * 16 + (s.reg .r0).toNat = s.cfg.memSize) :=
  ⟨⟨{ halted with regs := regs 0xFF 0x02 0x80 0x80 0x00 0x10 }, by decide⟩,
    ⟨{ halted with regs := regs 0x00 0x02 0x80 0x80 0x00 0x20 }, by decide⟩⟩

/-- add at the largest sum that fits and at the smallest that does not: V-A1, V-A2, V-A5, V-A6. -/
theorem witness_AddRegisterRule_and_AddImmediateRule :
    (0x7F#8 : Byte).toNat + (0x80#8 : Byte).toNat ≤ 0xFF ∧
    (busy.reg .r2).toNat + (busy.reg .r3).toNat = 0x100 ∧ 0xFF < (busy.reg .r2).toNat + (busy.reg .r3).toNat ∧
    (busy.reg .r0).toNat + (0xFE#8 : Byte).toNat ≤ 0xFF ∧ 0xFF < (busy.reg .r0).toNat + (0xFF#8 : Byte).toNat := by decide

theorem witness_XorRegisterRule_twice :
    Reg.ofIndex 0 = some .r0 ∧ Reg.ofIndex 5 = some .ds ∧ Reg.r0 ≠ .ds ∧ ∃ t, exec (.xorReg 0 5) busy = .next t :=
  ⟨by decide, by decide, by decide, _, rfl⟩

theorem witness_FrameOfRegisterWriters :
    WritesRegister (.movmLoad 0 1) ∧ Reg.ofIndex (Instr.movmLoad 0 1).operand1 ≠ some .ds ∧ ∃ t, exec (.movmLoad 0 1) busy = .next t :=
  ⟨.inr (.inr (.inr ⟨rfl, rfl⟩)), by decide, _, rfl⟩
theorem witness_FrameOfCompares : (Instr.cmpImm 5 0xFF#8).opcode = .cmp ∧ ∃ t, exec (.cmpImm 5 0xFF#8) busy = .next t := ⟨rfl, _, rfl⟩
theorem witness_FrameOfTransfers :
    (Instr.jmpeNear 15).opcode = .jmpe ∧ (Instr.jmpeNear 15).mode = false ∧ busy.flags ≠ 0x00#8 ∧
    (∃ t, exec (.jmpeNear 15) busy = .next t) ∧ ∃ t, exec (.jmpFar 0 0x06#8) busy = .next t :=
  ⟨rfl, rfl, by decide, ⟨_, rfl⟩, _, rfl⟩
theorem witness_FrameOfStores :
    (∃ t, exec (.movmStore 0 1) busy = .next t) ∧ Reg.ofIndex 0 = some .r0 ∧ (0 : Nat) ≠ dataAddr busy (busy.reg .r0) ∧
    (5 < 6 ∨ 5 < 0) ∧ ∃ t, exec (.movmStore 6 0) busy = .next t :=
  ⟨⟨_, rfl⟩, by decide, by decide, by decide, _, rfl⟩
theorem witness_FrameOfHalts : (Instr.hlt 0).opcode = .hlt ∧ ∃ t, exec (.hlt 0) busy = .next t := ⟨rfl, _, rfl⟩

end Sys2Proof.Tests
end

section
/-! PROOFS. The indexed register space (10_state.md section 1): which index names which register, and what a read, a
write and a refused access of it do. -/

namespace Sys2Proof.Machine

/-! ### The index of a register -/

/-- The index that names a register, the inverse of `Reg.ofIndex` (10_state.md R10). -/
def Reg.index : Reg → Nat
  | .r0 => 0
  | .r1 => 1
  | .r2 => 2
  | .r3 => 3
  | .cs => 4
  | .ds => 5

@[simp] theorem Reg.ofIndex_index (r : Reg) : Reg.ofIndex r.index = some r := by
  cases r <;> rfl

theorem Reg.eq_index_of_ofIndex {i : Nat} {r : Reg} (h : Reg.ofIndex i = some r) : i = r.index := by
  unfold Reg.ofIndex at h
  split at h <;> cases h <;> rfl

/-- Each register has one index only. -/
theorem Reg.ofIndex_inj {i j : Nat} {r : Reg} (hi : Reg.ofIndex i = some r) (hj : Reg.ofIndex j = some r) : i = j :=
  (Reg.eq_index_of_ofIndex hi).trans (Reg.eq_index_of_ofIndex hj).symm

theorem Reg.exists_ofIndex_of_le {i : Nat} (h : i ≤ 5) : ∃ r, Reg.ofIndex i = some r :=
  Option.ne_none_iff_exists'.mp fun hnone => Nat.not_lt.mpr h ((Reg.ofIndex_eq_none_iff i).mp hnone)

/-! ### Reads and writes by index -/

/-- A register named by another index than the one written reads as before (10_state.md R14). -/
theorem State.reg_setReg_of_index_ne {i j : Nat} {r q : Reg} (hi : Reg.ofIndex i = some r) (hj : Reg.ofIndex j = some q)
    (hne : j ≠ i) (s : State) (v : Byte) : (s.setReg r v).reg q = s.reg q :=
  State.reg_setReg_of_ne s v fun hqr => hne (Reg.ofIndex_inj hj (hqr ▸ hi))

end Sys2Proof.Machine

namespace Sys2Proof

open Machine

/-- Settles O8: each valid index names a register, whose write is read back and framed by the laws of `setReg`, and an
index above 5 is refused by `withReg`. -/
theorem registerReadAfterWrite : Obligations.RegisterReadAfterWrite := by
  refine ⟨fun i hi => ?_, fun i s next hi => withReg_of_gt hi s next⟩
  obtain ⟨r, hr⟩ := Reg.exists_ofIndex_of_le hi
  refine ⟨r, hr, fun s v => ⟨State.reg_setReg_self s r v, fun j q hne hq => ?_, ?_⟩⟩
  · exact State.reg_setReg_of_index_ne hr hq hne s v
  · exact ⟨State.setReg_ip s r v, State.setReg_flags s r v, State.setReg_mem s r v, State.setReg_status s r v⟩

/-- Settles O7: the six valid indices evaluate to their registers, and `Reg.ofIndex_eq_none_iff` excludes the others. -/
theorem indexedRegisterSpace : Obligations.IndexedRegisterSpace :=
  fun _ => ⟨rfl, rfl, rfl, rfl, rfl, rfl, fun i hi => (Reg.ofIndex_eq_none_iff i).mpr hi⟩

end Sys2Proof
end

section
/-! PROOFS. The decoder as a total function (30_encoding.md section 1 and R61): which instruction two bytes decode to, its
fields, and its length (R55). -/

namespace Sys2Proof

/-! ### The opcode of a number -/

/-- The eight numbers of three bits are all opcode numbers (30_encoding.md R52, R58). -/
theorem Opcode.exists_number_of_lt {n : Nat} (h : n < 8) : ∃ op : Opcode, op.number = n := by
  interval_cases n
  exacts [⟨.jmp, rfl⟩, ⟨.movr, rfl⟩, ⟨.movm, rfl⟩, ⟨.add, rfl⟩, ⟨.xor, rfl⟩, ⟨.cmp, rfl⟩, ⟨.jmpe, rfl⟩, ⟨.hlt, rfl⟩]

theorem modeField_eq_getLsbD (b1 : Byte) : modeField b1 = b1.getLsbD 4 := by
  rw [modeField_eq, BitVec.getLsbD, Nat.testBit_eq_decide_div_mod_eq]

/-! ### The length of an opcode and a mode -/

theorem lengthOf_eq_one_or_two (op : Opcode) (mode : Bool) : lengthOf op mode = 1 ∨ lengthOf op mode = 2 :=
  ite_eq_or_eq _ 1 2

theorem lengthOf_eq_one_iff (op : Opcode) (mode : Bool) :
    lengthOf op mode = 1 ↔ (op = .jmp ∨ op = .jmpe ∨ op = .hlt) ∧ mode = false := by
  simp [lengthOf]

/-- The one-byte opcodes by their numbers, as R61 writes them. -/
theorem Opcode.eq_jmp_or_jmpe_or_hlt_iff (op : Opcode) :
    (op = .jmp ∨ op = .jmpe ∨ op = .hlt) ↔ op.number = 0 ∨ op.number = 6 ∨ op.number = 7 := by
  cases op <;> decide

/-- Bits 7 to 4 of byte 1 hold opcode number and mode, so the three one-byte opcodes in mode 0 are three ranges of
sixteen values (30_encoding.md R55). -/
theorem lengthOf_eq_one_iff_byte1 {op : Opcode} {b1 : Byte} (hop : op.number = b1.toNat / 32) :
    lengthOf op (b1.getLsbD 4) = 1 ↔
      b1.toNat ≤ 0x0F ∨ (0xC0 ≤ b1.toNat ∧ b1.toNat ≤ 0xCF) ∨ (0xE0 ≤ b1.toNat ∧ b1.toNat ≤ 0xEF) := by
  have hb1 : b1.toNat < 256 := b1.isLt
  rw [lengthOf_eq_one_iff, Opcode.eq_jmp_or_jmpe_or_hlt_iff, hop, ← modeField_eq_getLsbD, modeField_eq,
    decide_eq_false_iff_not]
  omega

/-! ### The fields of an assembled instruction -/

section
variable (op : Opcode) (mode : Bool) (r1 : Nat) (b2 : Byte)

@[simp] theorem assemble_opcode : (assemble op mode r1 b2).opcode = op := by
  cases op <;> cases mode <;> rfl

@[simp] theorem assemble_mode : (assemble op mode r1 b2).mode = mode := by
  cases op <;> cases mode <;> rfl

@[simp] theorem assemble_operand1 : (assemble op mode r1 b2).operand1 = r1 := by
  cases op <;> cases mode <;> rfl

@[simp] theorem assemble_length : (assemble op mode r1 b2).length = lengthOf op mode := by
  rw [Instr.length, assemble_opcode, assemble_mode]

/-- A form that reads byte 2 as an index holds it as a number, and no bit of it is lost. -/
@[simp] theorem assemble_operand2 :
    (assemble op mode r1 b2).operand2 = if lengthOf op mode = 1 then none else some b2 := by
  cases op <;> cases mode <;> simp [assemble, Instr.operand2, lengthOf]

end

/-! ### Decoding -/

/-- The decoder as R61 writes it: any two bytes decode, to the instruction of the opcode that bits 7 to 5 of byte 1
number. -/
theorem exists_decode_eq_assemble (b1 b2 : Byte) :
    ∃ op : Opcode, op.number = b1.toNat / 32 ∧
      decode b1 b2 = .ok (assemble op (b1.getLsbD 4) (b1.toNat % 16) b2) := by
  have hlt : b1.toNat / 32 < 8 := by omega
  obtain ⟨op, hop⟩ := Opcode.exists_number_of_lt hlt
  refine ⟨op, hop, ?_⟩
  simp only [decode, opcodeField_eq, ← hop, Opcode.ofNumber_number, modeField_eq_getLsbD, operand1Field_eq]

/-- Settles O3: the decoder answers an assembled instruction, whose fields are the ones it was assembled from. -/
theorem fieldsAreExtractedBitExact : Obligations.FieldsAreExtractedBitExact := by
  intro b1 b2
  obtain ⟨op, hop, hdecode⟩ := exists_decode_eq_assemble b1 b2
  exact ⟨_, hdecode, by rw [assemble_opcode, hop], assemble_mode .., assemble_operand1 ..,
    by rw [assemble_operand2, assemble_length]⟩

/-- Settles O4: the length of an assembled instruction is `lengthOf` its opcode and mode, which are bits 7 to 4 of
byte 1. -/
theorem lengthRule : Obligations.LengthRule := by
  intro b1 b2 i hi
  obtain ⟨op, hop, hdecode⟩ := exists_decode_eq_assemble b1 b2
  obtain rfl : assemble op (b1.getLsbD 4) (b1.toNat % 16) b2 = i := Except.ok.inj (hdecode.symm.trans hi)
  rw [assemble_length, assemble_opcode, assemble_mode]
  exact ⟨lengthOf_eq_one_or_two _ _, lengthOf_eq_one_iff _ _, lengthOf_eq_one_iff_byte1 hop⟩

end Sys2Proof
end

section
/-! PROOFS. The control transfers (41_control_transfer.md): which byte 1 decodes to each, and what its executor answers. -/

namespace Sys2Proof

open Machine

/-! ### jmp rA -/

/-- Byte 1 of the form holds zero in its opcode and mode bits, so it is the register index itself (R85). -/
theorem decode_jmpNear {r1 : Nat} (h : r1 < 16) (b2 : Byte) :
    decode (BitVec.ofNat 8 (0x00 + r1)) b2 = .ok (.jmpNear r1) :=
  decode_encodeByte1 .jmp false h b2

/-- The near jump checks its one index, then writes `ip` (R85). -/
theorem exec_jmpNear (r1 : Nat) (s : State) :
    exec (.jmpNear r1) s = withReg r1 s fun a => .next (s.setIp (s.reg a)) := rfl

/-- Settles O32: byte 1 is the encoder's, and the executor is one checked index, so the laws of `withReg` give the jump
for a valid index and the raise for one above 5. -/
theorem jmpNearRule : Obligations.JmpNearRule := by
  refine ⟨fun r1 b2 h => ⟨decode_jmpNear h b2, rfl⟩, fun s r1 a ha => ?_, fun s r1 h => ?_⟩
  · exact (exec_jmpNear r1 s).trans (withReg_of_some ha s _)
  · exact (exec_jmpNear r1 s).trans (withReg_of_gt h s _)

end Sys2Proof
end

section
/-! PROOFS. The shared operations of the executors when their check is known to pass or to fail: two indices (R77), a data
read and a data write (R92, R93), and the read of a store after one write (20_memory.md R36). -/

namespace Sys2Proof.Machine

theorem withRegs_of_gt {i j : Nat} (h : 5 < i ∨ 5 < j) (s : State) (next : Reg → Reg → Result) :
    withRegs i j s next = raise .invalidRegister s := by
  rcases withRegs_cases i j s next with ⟨a, b, ha, hb, -⟩ | ⟨-, hraise⟩
  · have hi := Reg.le_five_of_ofIndex ha
    have hj := Reg.le_five_of_ofIndex hb
    omega
  · exact hraise

section
variable {s : State} {off : Byte}

theorem withLoad_of_lt (h : dataAddr s off < s.cfg.memSize) (next : Byte → Result) :
    withLoad off s next = next (Memory.read s.mem (dataAddr s off)) :=
  ((withLoad_cases off s next).resolve_right fun hout => Nat.not_lt.mpr hout.1 h).2

theorem withLoad_of_le (h : s.cfg.memSize ≤ dataAddr s off) (next : Byte → Result) :
    withLoad off s next = raise .outOfBounds s :=
  ((withLoad_cases off s next).resolve_left fun hin => Nat.not_lt.mpr h hin.1).2

theorem storeData_of_lt (h : dataAddr s off < s.cfg.memSize) (v : Byte) :
    storeData off v s = .next { s with mem := Memory.write s.mem (dataAddr s off) v } :=
  ((storeData_cases off v s).resolve_right fun hout => Nat.not_lt.mpr hout.1 h).2

theorem storeData_of_le (h : s.cfg.memSize ≤ dataAddr s off) (v : Byte) :
    storeData off v s = raise .outOfBounds s :=
  ((storeData_cases off v s).resolve_left fun hin => Nat.not_lt.mpr h hin.1).2

end

/-- A write changes exactly the cell written. -/
theorem Memory.read_write {m : Memory} (hw : Memory.wf m = true) (x y : Nat) (v : Byte) :
    Memory.read (Memory.write m x v) y = if y = x then v else Memory.read m y := by
  split_ifs with hyx
  · exact hyx ▸ Memory.read_write_self y v hw
  · exact Memory.read_write_of_ne m v hyx

end Sys2Proof.Machine
end

section
/-! PROOFS. Data movement (42_data_movement.md): which byte 1 decodes to each form, and what its executor answers. -/

namespace Sys2Proof

open Machine

/-! ### movr rA, rB -/

theorem decode_movrReg {r1 : Nat} (h : r1 < 16) (b2 : Byte) :
    decode (BitVec.ofNat 8 (0x20 + r1)) b2 = .ok (.movrReg r1 b2.toNat) :=
  decode_encodeByte1 .movr false h b2

/-- The copy checks both indices, then writes its destination (R90). -/
theorem exec_movrReg (r1 r2 : Nat) (s : State) :
    exec (.movrReg r1 r2) s = withRegs r1 r2 s fun a b => .next (s.setReg a (s.reg b)) := rfl

/-- Settles O36: byte 1 is the encoder's, and the executor is two checked indices, so the laws of `withRegs` give the copy
for valid indices and the raise when one is above 5. -/
theorem movrRegisterRule : Obligations.MovrRegisterRule := by
  refine ⟨fun r1 b2 h => ⟨decode_movrReg h b2, rfl⟩, fun s r1 r2 a b ha hb => ?_, fun s r1 r2 h => ?_⟩
  · exact (exec_movrReg r1 r2 s).trans (withRegs_of_some ha hb s _)
  · exact (exec_movrReg r1 r2 s).trans (withRegs_of_gt h s _)

/-! ### movr rA, $imm -/

theorem decode_movrImm {r1 : Nat} (h : r1 < 16) (b2 : Byte) :
    decode (BitVec.ofNat 8 (0x30 + r1)) b2 = .ok (.movrImm r1 b2) :=
  decode_encodeByte1 .movr true h b2

/-- The immediate is written as it stands, once the one index is checked (R91). -/
theorem exec_movrImm (r1 : Nat) (imm : Byte) (s : State) :
    exec (.movrImm r1 imm) s = withReg r1 s fun a => .next (s.setReg a imm) := rfl

/-- Settles O37: byte 1 is the encoder's, and the executor is one checked index, so the laws of `withReg` give the write
for a valid index and the raise for one above 5. -/
theorem movrImmediateRule : Obligations.MovrImmediateRule := by
  refine ⟨fun r1 b2 h => ⟨decode_movrImm h b2, rfl⟩, fun s r1 imm a ha => ?_, fun s r1 imm h => ?_⟩
  · exact (exec_movrImm r1 imm s).trans (withReg_of_some ha s _)
  · exact (exec_movrImm r1 imm s).trans (withReg_of_gt h s _)

/-! ### movm rA, [ds:rB] -/

theorem decode_movmLoad {r1 : Nat} (h : r1 < 16) (b2 : Byte) :
    decode (BitVec.ofNat 8 (0x40 + r1)) b2 = .ok (.movmLoad r1 b2.toNat) :=
  decode_encodeByte1 .movm false h b2

/-- The load checks both indices, then its address, then writes its destination (R92). -/
theorem exec_movmLoad (r1 r2 : Nat) (s : State) :
    exec (.movmLoad r1 r2) s = withRegs r1 r2 s fun a b => withLoad (s.reg b) s fun v => .next (s.setReg a v) := rfl

/-- With valid indices the load is a data read at the offset in the second register (R92). -/
theorem exec_movmLoad_of_some {r1 r2 : Nat} {a b : Reg} (ha : Reg.ofIndex r1 = some a) (hb : Reg.ofIndex r2 = some b)
    (s : State) : exec (.movmLoad r1 r2) s = withLoad (s.reg b) s fun v => .next (s.setReg a v) :=
  (exec_movmLoad r1 r2 s).trans (withRegs_of_some ha hb s _)

/-- Settles O38: the index check of `withRegs` comes first, and for valid indices the two laws of `withLoad`, split at
MEM_SIZE, give the load and the raise; both read the `ds` of the state before the write. -/
theorem movmLoadRule : Obligations.MovmLoadRule := by
  refine ⟨fun r1 b2 h => ⟨decode_movmLoad h b2, rfl⟩, fun s r1 r2 a b ha hb hlt => ?_, fun s r1 r2 h => ?_,
    fun s r1 r2 b h1 hb hle => ?_⟩
  · exact (exec_movmLoad_of_some ha hb s).trans (withLoad_of_lt hlt _)
  · exact (exec_movmLoad r1 r2 s).trans (withRegs_of_gt h s _)
  · obtain ⟨a, ha⟩ := Reg.exists_ofIndex_of_le h1
    exact (exec_movmLoad_of_some ha hb s).trans (withLoad_of_le hle _)

/-! ### movm [ds:rA], rB -/

theorem decode_movmStore {r1 : Nat} (h : r1 < 16) (b2 : Byte) :
    decode (BitVec.ofNat 8 (0x50 + r1)) b2 = .ok (.movmStore r1 b2.toNat) :=
  decode_encodeByte1 .movm true h b2

/-- The store checks both indices; the first register gives the offset, the second the value (R93). -/
theorem exec_movmStore (r1 r2 : Nat) (s : State) :
    exec (.movmStore r1 r2) s = withRegs r1 r2 s fun a b => storeData (s.reg a) (s.reg b) s := rfl

/-- With valid indices the store is a data write at the offset in the first register (R93). -/
theorem exec_movmStore_of_some {r1 r2 : Nat} {a b : Reg} (ha : Reg.ofIndex r1 = some a) (hb : Reg.ofIndex r2 = some b)
    (s : State) : exec (.movmStore r1 r2) s = storeData (s.reg a) (s.reg b) s :=
  (exec_movmStore r1 r2 s).trans (withRegs_of_some ha hb s _)

/-- Settles O39: the index check of `withRegs` comes first; for valid indices the laws of `storeData`, split at MEM_SIZE,
give the write and the raise, and `Memory.read_write` says which cell the write changes. -/
theorem movmStoreRule : Obligations.MovmStoreRule := by
  refine ⟨fun r1 b2 h => ⟨decode_movmStore h b2, rfl⟩, fun s r1 r2 a b hw ha hb hlt => ?_, fun s r1 r2 h => ?_,
    fun s r1 r2 a h2 ha hle => ?_⟩
  · exact ⟨_, (exec_movmStore_of_some ha hb s).trans (storeData_of_lt hlt _), fun x => Memory.read_write hw _ x _⟩
  · exact (exec_movmStore r1 r2 s).trans (withRegs_of_gt h s _)
  · obtain ⟨b, hb⟩ := Reg.exists_ofIndex_of_le h2
    exact (exec_movmStore_of_some ha hb s).trans (storeData_of_le hle _)

end Sys2Proof
end

section
/-! PROOFS. The comparison as a function of two bytes (43_alu_compare.md R101), and the two laws of a register written with
its own value and written twice. -/

namespace Sys2Proof.Machine

/-! ### compare, by the order of its operands -/

section
variable {a b : Byte}

@[simp] theorem compareBytes_self (a : Byte) : compareBytes a a = flagEqual :=
  if_pos rfl

theorem compareBytes_of_lt (h : a.toNat < b.toNat) : compareBytes a b = flagLess := by
  rw [compareBytes, if_neg h.ne, if_pos h]

theorem compareBytes_of_gt (h : b.toNat < a.toNat) : compareBytes a b = flagGreater := by
  rw [compareBytes, if_neg h.ne', if_neg h.not_gt]

end

/-- The comparison as R99 and R100 write it, with equality of the bytes themselves. -/
theorem compareBytes_eq_ite (a b : Byte) :
    compareBytes a b = if a = b then 0x00#8 else if a.toNat < b.toNat then 0xFF#8 else 0x01#8 := by
  simp only [compareBytes, BitVec.toNat_inj, flagEqual, flagLess, flagGreater]

/-! ### Writing one register with its own value, and twice -/

@[simp] theorem RegFile.set_get_self (f : RegFile) (r : Reg) : f.set r (f.get r) = f := by
  cases r <;> rfl

@[simp] theorem RegFile.set_set (f : RegFile) (r : Reg) (v w : Byte) : (f.set r v).set r w = f.set r w := by
  cases r <;> rfl

@[simp] theorem State.setReg_reg_self (s : State) (r : Reg) : s.setReg r (s.reg r) = s := by
  rw [State.setReg, State.reg, RegFile.set_get_self]

@[simp] theorem State.setReg_setReg (s : State) (r : Reg) (v w : Byte) : (s.setReg r v).setReg r w = s.setReg r w := by
  rw [State.setReg, State.setReg_regs, RegFile.set_set, State.setReg, State.setReg]

end Sys2Proof.Machine
end

section
/-! PROOFS. Exclusive-or and compare (43_alu_compare.md R97 to R101): which byte 1 decodes to each form, and what its
executor answers. -/

namespace Sys2Proof

open Machine

/-! ### compare -/

/-- Settles O46: the order of two bytes is one of three cases, each gives one code, and the three codes are distinct. -/
theorem compareIsUnsignedOrder : Obligations.CompareIsUnsignedOrder := by
  intro a b
  rcases lt_trichotomy a.toNat b.toNat with hlt | heq | hgt
  · have hne : a ≠ b := fun h => hlt.ne (congrArg BitVec.toNat h)
    rw [compareBytes_of_lt hlt]
    simp [LegalFlags, flagEqual, flagLess, flagGreater, hlt, hlt.le, hne]
  · obtain rfl : a = b := BitVec.eq_of_toNat_eq heq
    rw [compareBytes_self]
    simp [LegalFlags, flagEqual]
  · have hne : a ≠ b := fun h => hgt.ne' (congrArg BitVec.toNat h)
    rw [compareBytes_of_gt hgt]
    simp [LegalFlags, flagEqual, flagLess, flagGreater, hgt, hgt.le, hne]

/-! ### xor rA, rB -/

theorem decode_xorReg {r1 : Nat} (h : r1 < 16) (b2 : Byte) :
    decode (BitVec.ofNat 8 (0x80 + r1)) b2 = .ok (.xorReg r1 b2.toNat) :=
  decode_encodeByte1 .xor false h b2

/-- The exclusive-or checks both indices, then writes its destination (R97). -/
theorem exec_xorReg (r1 r2 : Nat) (s : State) :
    exec (.xorReg r1 r2) s = withRegs r1 r2 s fun a b => .next (s.setReg a (s.reg a ^^^ s.reg b)) := rfl

theorem exec_xorReg_of_some {r1 r2 : Nat} {a b : Reg} (ha : Reg.ofIndex r1 = some a) (hb : Reg.ofIndex r2 = some b)
    (s : State) : exec (.xorReg r1 r2) s = .next (s.setReg a (s.reg a ^^^ s.reg b)) :=
  (exec_xorReg r1 r2 s).trans (withRegs_of_some ha hb s _)

/-- The second xor finds the source unchanged in another register, so it takes the first one back (R97). -/
theorem exec_xorReg_twice {r1 r2 : Nat} {a b : Reg} (ha : Reg.ofIndex r1 = some a) (hb : Reg.ofIndex r2 = some b)
    (hab : a ≠ b) (s : State) : exec (.xorReg r1 r2) (s.setReg a (s.reg a ^^^ s.reg b)) = .next s := by
  rw [exec_xorReg_of_some ha hb, State.reg_setReg_self, State.reg_setReg_of_ne s _ hab.symm, BitVec.xor_assoc,
    BitVec.xor_self, BitVec.xor_zero, State.setReg_setReg, State.setReg_reg_self]

/-- Settles O42: byte 1 is the encoder's, the laws of `withRegs` give the write and the raise, and the two corner cases
are that write with the source equal to the destination and the write done twice. -/
theorem xorRegisterRule : Obligations.XorRegisterRule := by
  refine ⟨fun r1 b2 h => ⟨decode_xorReg h b2, rfl⟩, fun s r1 r2 a b ha hb => ?_, fun s r1 r2 h => ?_,
    fun s r1 a ha => ?_, fun s t r1 r2 a b ha hb hab ht => ?_⟩
  · exact exec_xorReg_of_some ha hb s
  · exact (exec_xorReg r1 r2 s).trans (withRegs_of_gt h s _)
  · rw [exec_xorReg_of_some ha ha, BitVec.xor_self, State.setReg]
  · rw [exec_xorReg_of_some ha hb] at ht
    obtain rfl := Host.Outcome.next.inj ht
    exact exec_xorReg_twice ha hb hab s

/-! ### xor rA, $imm -/

theorem decode_xorImm {r1 : Nat} (h : r1 < 16) (b2 : Byte) :
    decode (BitVec.ofNat 8 (0x90 + r1)) b2 = .ok (.xorImm r1 b2) :=
  decode_encodeByte1 .xor true h b2

/-- The exclusive-or with an immediate checks its one index, then writes that register (R98). -/
theorem exec_xorImm (r1 : Nat) (imm : Byte) (s : State) :
    exec (.xorImm r1 imm) s = withReg r1 s fun a => .next (s.setReg a (s.reg a ^^^ imm)) := rfl

theorem exec_xorImm_of_some {r1 : Nat} {a : Reg} (ha : Reg.ofIndex r1 = some a) (imm : Byte) (s : State) :
    exec (.xorImm r1 imm) s = .next (s.setReg a (s.reg a ^^^ imm)) :=
  (exec_xorImm r1 imm s).trans (withReg_of_some ha s _)

/-- Settles O43: byte 1 is the encoder's, the laws of `withReg` give the write and the raise, and the two corner cases are
that write with the neutral and with the complementing immediate. -/
theorem xorImmediateRule : Obligations.XorImmediateRule := by
  refine ⟨fun r1 b2 h => ⟨decode_xorImm h b2, rfl⟩, fun s r1 imm a ha => ?_, fun s r1 imm h => ?_,
    fun s r1 a ha => ⟨?_, ?_⟩⟩
  · exact exec_xorImm_of_some ha imm s
  · exact (exec_xorImm r1 imm s).trans (withReg_of_gt h s _)
  · rw [exec_xorImm_of_some ha, BitVec.xor_zero, State.setReg_reg_self]
  · have hones : (0xFF#8 : Byte) = BitVec.allOnes 8 := rfl
    rw [exec_xorImm_of_some ha, hones, BitVec.xor_allOnes, State.setReg]

/-! ### cmp rA, rB -/

theorem decode_cmpReg {r1 : Nat} (h : r1 < 16) (b2 : Byte) :
    decode (BitVec.ofNat 8 (0xA0 + r1)) b2 = .ok (.cmpReg r1 b2.toNat) :=
  decode_encodeByte1 .cmp false h b2

/-- The comparison checks both indices, then writes `flags` only (R99). -/
theorem exec_cmpReg (r1 r2 : Nat) (s : State) :
    exec (.cmpReg r1 r2) s = withRegs r1 r2 s fun a b => .next (s.setFlags (compareBytes (s.reg a) (s.reg b))) := rfl

/-- Settles O44: byte 1 is the encoder's, the laws of `withRegs` give the comparison and the raise, and
`compareBytes_eq_ite` spells the code out. -/
theorem cmpRegisterRule : Obligations.CmpRegisterRule := by
  refine ⟨fun r1 b2 h => ⟨decode_cmpReg h b2, rfl⟩, fun s r1 r2 a b ha hb => ?_, fun s r1 r2 h => ?_⟩
  · rw [exec_cmpReg, withRegs_of_some ha hb, compareBytes_eq_ite, State.setFlags]
  · exact (exec_cmpReg r1 r2 s).trans (withRegs_of_gt h s _)

/-! ### cmp rA, $imm -/

theorem decode_cmpImm {r1 : Nat} (h : r1 < 16) (b2 : Byte) :
    decode (BitVec.ofNat 8 (0xB0 + r1)) b2 = .ok (.cmpImm r1 b2) :=
  decode_encodeByte1 .cmp true h b2

/-- The comparison with an immediate checks its one index, then writes `flags` only (R100). -/
theorem exec_cmpImm (r1 : Nat) (imm : Byte) (s : State) :
    exec (.cmpImm r1 imm) s = withReg r1 s fun a => .next (s.setFlags (compareBytes (s.reg a) imm)) := rfl

/-- Settles O45: byte 1 is the encoder's, the laws of `withReg` give the comparison and the raise, and
`compareBytes_eq_ite` spells the code out. -/
theorem cmpImmediateRule : Obligations.CmpImmediateRule := by
  refine ⟨fun r1 b2 h => ⟨decode_cmpImm h b2, rfl⟩, fun s r1 imm a ha => ?_, fun s r1 imm h => ?_⟩
  · rw [exec_cmpImm, withReg_of_some ha, compareBytes_eq_ite, State.setFlags]
  · exact (exec_cmpImm r1 imm s).trans (withReg_of_gt h s _)

end Sys2Proof
end

section
/-! PROOFS. The decoder and the encoder as inverses (30_encoding.md sections 1 to 4): every byte 1 is one the encoder
writes, and an instruction is assembled from its own fields. -/

namespace Sys2Proof

/-! ### Byte 1 as the encoder writes it -/

/-- The three fields of byte 1 cover all its bits, so the encoder writes every byte (30_encoding.md R50, R51). -/
theorem exists_encodeByte1_eq (b1 : Byte) :
    ∃ (op : Opcode) (mode : Bool) (r1 : Nat), r1 < 16 ∧ encodeByte1 op mode r1 = b1 := by
  have hlt : b1.toNat / 32 < 8 := by omega
  obtain ⟨op, hop⟩ := Opcode.exists_number_of_lt hlt
  have hr1 : b1.toNat % 16 < 16 := Nat.mod_lt _ (by decide)
  refine ⟨op, decide (b1.toNat / 16 % 2 = 1), b1.toNat % 16, hr1, BitVec.eq_of_toNat_eq ?_⟩
  rw [encodeByte1_toNat op _ hr1, hop]
  simp only [decide_eq_true_eq]
  split_ifs <;> omega

/-- What decodes was assembled from the fields that the encoder put in byte 1, and from byte 2. -/
theorem exists_fields_of_decode {b1 b2 : Byte} {i : Instr} (h : decode b1 b2 = .ok i) :
    ∃ (op : Opcode) (mode : Bool) (r1 : Nat), r1 < 16 ∧ encodeByte1 op mode r1 = b1 ∧ assemble op mode r1 b2 = i := by
  obtain ⟨op, mode, r1, hr1, rfl⟩ := exists_encodeByte1_eq b1
  exact ⟨op, mode, r1, hr1, rfl, Except.ok.inj ((decode_encodeByte1 op mode hr1 b2).symm.trans h)⟩

/-! ### The fields of a well-formed instruction -/

theorem Instr.operand1_lt_of_wellFormed {i : Instr} (h : i.wellFormed = true) : i.operand1 < 16 := by
  cases i <;> simp_all [Instr.wellFormed, Instr.operand1, fitsOperand1]

theorem Instr.length_eq_one_iff_operand2 (i : Instr) : i.length = 1 ↔ i.operand2 = none := by
  cases i <;> simp [Instr.length, Instr.opcode, Instr.mode, Instr.operand2, lengthOf]

/-- A well-formed instruction is assembled from its own fields; what stands for a byte 2 it does not have is immaterial. -/
theorem assemble_fields {i : Instr} (h : i.wellFormed = true) (b2 : Byte) :
    assemble i.opcode i.mode i.operand1 (i.operand2.getD b2) = i := by
  cases i <;> simp_all [Instr.wellFormed, Instr.opcode, Instr.mode, Instr.operand1, Instr.operand2, assemble,
    fitsOperand2, Nat.mod_eq_of_lt]

theorem decode_of_wellFormed {i : Instr} (h : i.wellFormed = true) (b2 : Byte) :
    decode (encodeByte1 i.opcode i.mode i.operand1) (i.operand2.getD b2) = .ok i := by
  rw [decode_encodeByte1 _ _ (Instr.operand1_lt_of_wellFormed h), assemble_fields h]

/-! ### The fields of an assembled instruction -/

theorem assemble_wellFormed (op : Opcode) (mode : Bool) {r1 : Nat} (h : r1 < 16) (b2 : Byte) :
    (assemble op mode r1 b2).wellFormed = true := by
  have hb2 := b2.isLt
  cases op <;> cases mode <;> simp [assemble, Instr.wellFormed, fitsOperand1, fitsOperand2, h, hb2]

theorem encode_assemble (op : Opcode) (mode : Bool) (r1 : Nat) (b2 : Byte) :
    encode (assemble op mode r1 b2) = encodeByte1 op mode r1 :: if lengthOf op mode = 1 then [] else [b2] := by
  rw [encode, assemble_opcode, assemble_mode, assemble_operand1, assemble_operand2, apply_ite Option.toList,
    Option.toList_none, Option.toList_some]

/-- The one-byte forms drop byte 2 (30_encoding.md R56). -/
theorem assemble_eq_of_length_one {op : Opcode} {mode : Bool} (h : lengthOf op mode = 1) (r1 : Nat) (b2 c2 : Byte) :
    assemble op mode r1 b2 = assemble op mode r1 c2 := by
  obtain ⟨rfl | rfl | rfl, rfl⟩ := (lengthOf_eq_one_iff op mode).mp h <;> rfl

/-! ### What two bytes decode to -/

/-- Decode is total (30_encoding.md R61). -/
theorem exists_decode_eq_ok (b1 b2 : Byte) : ∃ i, decode b1 b2 = .ok i := by
  obtain ⟨op, -, hdecode⟩ := exists_decode_eq_assemble b1 b2
  exact ⟨_, hdecode⟩

section
variable {b1 b2 : Byte} {i : Instr}

theorem wellFormed_of_decode (h : decode b1 b2 = .ok i) : i.wellFormed = true := by
  obtain ⟨op, mode, r1, hr1, -, rfl⟩ := exists_fields_of_decode h
  exact assemble_wellFormed op mode hr1 b2

theorem encode_of_decode (h : decode b1 b2 = .ok i) : encode i = b1 :: if i.length = 1 then [] else [b2] := by
  obtain ⟨op, mode, r1, -, rfl, rfl⟩ := exists_fields_of_decode h
  rw [encode_assemble, assemble_length]

/-- A one-byte instruction is decoded from byte 1 alone (30_encoding.md R56). -/
theorem decode_of_length_one (h : decode b1 b2 = .ok i) (hlen : i.length = 1) (c2 : Byte) : decode b1 c2 = .ok i := by
  obtain ⟨op, mode, r1, hr1, rfl, rfl⟩ := exists_fields_of_decode h
  rw [decode_encodeByte1 op mode hr1, assemble_eq_of_length_one ((assemble_length op mode r1 b2).symm.trans hlen) r1 b2 c2]

theorem decodeBytes_of_length_one (hlen : i.length = 1) (h : ∀ c2, decode b1 c2 = .ok i) (rest : List Byte) :
    decodeBytes (b1 :: rest) = .ok (i, rest) := by
  cases rest with
  | nil => simp only [decodeBytes, h, hlen, if_true]
  | cons b2 rest => simp only [decodeBytes, h, hlen, if_true]

theorem decodeBytes_of_length_ne_one (hlen : i.length ≠ 1) (h : decode b1 b2 = .ok i) (rest : List Byte) :
    decodeBytes (b1 :: b2 :: rest) = .ok (i, rest) := by
  simp only [decodeBytes, h, hlen, if_false]

/-- A list of bytes that decodes begins with the one or the two bytes of its instruction. -/
theorem decodeBytes_cases {bytes rest : List Byte} (h : decodeBytes bytes = .ok (i, rest)) :
    (∃ b1 b2, decode b1 b2 = .ok i ∧ i.length = 1 ∧ bytes = b1 :: rest) ∨
      (∃ b1 b2, decode b1 b2 = .ok i ∧ i.length ≠ 1 ∧ bytes = b1 :: b2 :: rest) := by
  match bytes with
  | [] => exact nomatch h
  | [b1] =>
    obtain ⟨j, hj⟩ := exists_decode_eq_ok b1 0#8
    by_cases hlen : j.length = 1 <;> simp only [decodeBytes, hj, hlen, if_true, if_false] at h
    · obtain ⟨rfl, rfl⟩ := Prod.mk.inj (Except.ok.inj h)
      exact .inl ⟨b1, 0#8, hj, hlen, rfl⟩
    · exact nomatch h
  | b1 :: b2 :: tail =>
    obtain ⟨j, hj⟩ := exists_decode_eq_ok b1 b2
    by_cases hlen : j.length = 1 <;> simp only [decodeBytes, hj, hlen, if_true, if_false] at h
    · obtain ⟨rfl, rfl⟩ := Prod.mk.inj (Except.ok.inj h)
      exact .inl ⟨b1, b2, hj, hlen, rfl⟩
    · obtain ⟨rfl, rfl⟩ := Prod.mk.inj (Except.ok.inj h)
      exact .inr ⟨b1, b2, hj, hlen, rfl⟩

end

/-- Settles O1: by the instruction's byte 2. Byte 1 is the encoder's, so a form without byte 2 is decoded from it alone and
a form with one from both, and the instruction is assembled from its own fields again. -/
theorem decodeInvertsEncode : Obligations.DecodeInvertsEncode := by
  intro i rest hwf
  have hdecode := decode_of_wellFormed hwf
  cases hop2 : i.operand2 with
  | none =>
    simp only [hop2, Option.getD_none] at hdecode
    rw [encode, hop2]
    exact decodeBytes_of_length_one ((Instr.length_eq_one_iff_operand2 i).mpr hop2) hdecode rest
  | some b2 =>
    simp only [hop2, Option.getD_some] at hdecode
    have hlen : i.length ≠ 1 := fun h => nomatch hop2.symm.trans ((Instr.length_eq_one_iff_operand2 i).mp h)
    rw [encode, hop2]
    exact decodeBytes_of_length_ne_one hlen (hdecode b2) rest

/-- Settles O2: the bytes begin with the one or the two that the instruction was decoded from, which its encoding gives
back. -/
theorem encodeInvertsDecode : Obligations.EncodeInvertsDecode := by
  intro bytes i rest h
  rcases decodeBytes_cases h with ⟨b1, b2, hdecode, hlen, rfl⟩ | ⟨b1, b2, hdecode, hlen, rfl⟩
  · refine ⟨wellFormed_of_decode hdecode, ?_⟩
    rw [encode_of_decode hdecode, if_pos hlen, List.singleton_append]
  · refine ⟨wellFormed_of_decode hdecode, ?_⟩
    rw [encode_of_decode hdecode, if_neg hlen, List.cons_append, List.singleton_append]

/-- Settles O5: sixteen closed words, which the decoder evaluates. -/
theorem decodedWordsOfTheSyntaxTable : Obligations.DecodedWordsOfTheSyntaxTable := by
  unfold Obligations.DecodedWordsOfTheSyntaxTable
  decide

end Sys2Proof
end

section
/-! PROOFS. The byte store (20_memory.md sections 1 and 2): the canonical form, the laws of a cell read after it was
written or loaded, and the port's address. -/

namespace Sys2Proof.Machine

/-! ### The canonical form -/

theorem Memory.read_cons_self (a : Nat) (v : Byte) (rest : Memory) : Memory.read ((a, v) :: rest) a = v :=
  if_pos rfl

theorem Memory.read_cons_of_ne {a x : Nat} (h : a ≠ x) (v : Byte) (rest : Memory) :
    Memory.read ((a, v) :: rest) x = Memory.read rest x :=
  if_neg h

/-- A listed cell reads as another than the unlisted byte, so a store that reads like it lists the cell too. -/
theorem Memory.le_of_read_eq {a b : Nat} {v w : Byte} {m n : Memory} (hm : Memory.wfFrom a ((a, v) :: m) = true)
    (hn : Memory.wfFrom b ((b, w) :: n) = true)
    (h : Memory.read ((a, v) :: m) a = Memory.read ((b, w) :: n) a) : b ≤ a := by
  by_contra hlt
  rw [Memory.read_cons_self, Memory.read_of_lt hn (Nat.not_le.mp hlt)] at h
  exact (Memory.wfFrom_cons.mp hm).2.1 h

/-- Canonical stores that read alike are equal, by induction on the lists: both begin with the least cell that does not
read as the unlisted byte. -/
theorem Memory.eq_of_read_eq {low : Nat} {m n : Memory} (hm : Memory.wfFrom low m = true)
    (hn : Memory.wfFrom low n = true) (h : ∀ x, Memory.read m x = Memory.read n x) : m = n := by
  induction m generalizing low n with
  | nil =>
    cases n with
    | nil => rfl
    | cons d n =>
      obtain ⟨b, w⟩ := d
      exact absurd ((h b).trans (Memory.read_cons_self b w n)).symm (Memory.wfFrom_cons.mp hn).2.1
  | cons c m ih =>
    obtain ⟨a, v⟩ := c
    obtain ⟨-, hv, hm⟩ := Memory.wfFrom_cons.mp hm
    cases n with
    | nil => exact absurd ((Memory.read_cons_self a v m).symm.trans (h a)) hv
    | cons d n =>
      obtain ⟨b, w⟩ := d
      obtain ⟨-, hw, hn⟩ := Memory.wfFrom_cons.mp hn
      have hm' : Memory.wfFrom a ((a, v) :: m) = true := Memory.wfFrom_cons.mpr ⟨le_rfl, hv, hm⟩
      have hn' : Memory.wfFrom b ((b, w) :: n) = true := Memory.wfFrom_cons.mpr ⟨le_rfl, hw, hn⟩
      obtain rfl : a = b := le_antisymm (Memory.le_of_read_eq hn' hm' (h b).symm) (Memory.le_of_read_eq hm' hn' (h a))
      have hvw : v = w := by simpa only [Memory.read_cons_self] using h a
      refine congrArg₂ _ (congrArg _ hvw) (ih hm hn fun x => ?_)
      by_cases hax : a = x
      · rw [← hax, Memory.read_of_lt hm (Nat.lt_succ_self a), Memory.read_of_lt hn (Nat.lt_succ_self a)]
      · simpa only [Memory.read_cons_of_ne hax] using h x

/-- The canonical store that holds the first `n` bytes of a contents (`MEM_INIT`, 00_scope.md R6). -/
def Memory.ofContents (memInit : Nat → Byte) : Nat → Memory
  | 0 => []
  | n + 1 => Memory.write (Memory.ofContents memInit n) n (memInit n)

theorem Memory.ofContents_wf (memInit : Nat → Byte) (n : Nat) : Memory.wf (Memory.ofContents memInit n) = true := by
  induction n with
  | zero => rfl
  | succ n ih => exact Memory.write_keeps_wf n (memInit n) ih

theorem Memory.ofContents_lt (memInit : Nat → Byte) (n : Nat) : ∀ c ∈ Memory.ofContents memInit n, c.1 < n := by
  induction n with
  | zero => exact fun c hc => absurd hc List.not_mem_nil
  | succ n ih =>
    intro c hc
    rcases Memory.mem_write hc with hc | hc
    · exact (ih c hc).trans (Nat.lt_succ_self n)
    · exact hc ▸ Nat.lt_succ_self n

theorem Memory.read_ofContents (memInit : Nat → Byte) {n a : Nat} (h : a < n) :
    Memory.read (Memory.ofContents memInit n) a = memInit a := by
  induction n with
  | zero => exact absurd h (Nat.not_lt_zero a)
  | succ n ih =>
    rw [Memory.ofContents, Memory.read_write (Memory.ofContents_wf memInit n)]
    split_ifs with han
    · rw [han]
    · exact ih (by omega)

/-! ### A cell read after it was written -/

theorem readCell_of_lt {s : State} {a : Nat} (h : a < s.cfg.memSize) : readCell s a = some (Memory.read s.mem a) :=
  readCell_eq_some_iff.mpr ⟨h, rfl⟩

theorem readCell_write {s : State} (hw : Memory.wf s.mem = true) {a : Nat} (ha : a < s.cfg.memSize) (v : Byte) (x : Nat) :
    readCell { s with mem := Memory.write s.mem a v } x = if x = a then some v else readCell s x := by
  split_ifs with hxa
  · exact readCell_eq_some_iff.mpr ⟨hxa ▸ ha, hxa ▸ Memory.read_write_self a v hw⟩
  · simp only [readCell, Memory.read_write_of_ne s.mem v hxa]

/-- After a successful write the cell holds the byte, and every other cell, or missing cell, reads as before. -/
theorem readCell_of_writeCell {s t : State} {a : Nat} {v : Byte} (hw : Memory.wf s.mem = true)
    (h : writeCell s a v = some t) (x : Nat) : readCell t x = if x = a then some v else readCell s x := by
  obtain ⟨ha, rfl⟩ := writeCell_eq_some_iff.mp h
  exact readCell_write hw ha v x

/-! ### A cell read after it was loaded -/

@[simp] theorem State.loadCell_cfg (s : State) (a : Nat) (v : Byte) : (s.loadCell a v).cfg = s.cfg := by
  rcases s.loadCell_cases a v with ⟨-, h⟩ | ⟨-, h⟩ <;> rw [h]

theorem State.loadCell_of_lt {s : State} {a : Nat} (h : a < s.cfg.memSize) (v : Byte) :
    s.loadCell a v = { s with mem := Memory.write s.mem a v } :=
  if_pos h

theorem readCell_loadCell_self {s : State} (hw : Memory.wf s.mem = true) {a : Nat} (ha : a < s.cfg.memSize) (v : Byte) :
    readCell (s.loadCell a v) a = some v := by
  rw [State.loadCell_of_lt ha, readCell_write hw ha, if_pos rfl]

theorem readCell_loadCell_of_ne (s : State) {a x : Nat} (v : Byte) (h : x ≠ a) :
    readCell (s.loadCell a v) x = readCell s x := by
  rcases s.loadCell_cases a v with ⟨-, hload⟩ | ⟨-, hload⟩
  · rw [hload]
    simp only [readCell, Memory.read_write_of_ne s.mem v h]
  · rw [hload]

/-- Loading an image leaves the cells below its start alone. -/
theorem readCell_loadImage_of_lt (bytes : List Byte) (s : State) {a x : Nat} (h : x < a) :
    readCell (s.loadImage a bytes) x = readCell s x := by
  induction bytes generalizing s a with
  | nil => rfl
  | cons v rest ih => exact (ih _ (h.trans (Nat.lt_succ_self a))).trans (readCell_loadCell_of_ne s v h.ne)

end Sys2Proof.Machine

namespace Sys2Proof

open Machine

/-- Settles O14: the canonical form is `Memory.wfFrom 0`, and `Memory.eq_of_read_eq` is the induction. -/
theorem canonicalStoresThatReadAlikeAreEqual : Obligations.CanonicalStoresThatReadAlikeAreEqual :=
  fun _ _ hm hn h => Memory.eq_of_read_eq hm hn h

/-- Settles O13: the port is the cell at the translated address, so the laws of a cell are the laws of the port. -/
theorem memoryPort : Obligations.MemoryPort := by
  refine ⟨fun s seg off => rfl, fun s seg off v hw hlt => ?_, fun s seg off v hle => writeCell_eq_none_iff.mpr hle⟩
  exact ⟨_, writeCell_eq_some_iff.mpr ⟨hlt, rfl⟩, fun x => Memory.read_write hw _ x v⟩

/-- Sixteen offsets further is one segment further (20_memory.md R31, R32). -/
theorem translateAddr_next_segment {seg off : Byte} (hseg : seg.toNat + 1 ≤ 255) (hoff : 16 ≤ off.toNat) :
    translateAddr (seg + 1#8) (off - 16#8) = translateAddr seg off := by
  have hseg' : (seg + 1#8).toNat = seg.toNat + 1 := by bv_omega
  have hoff' : (off - 16#8).toNat = off.toNat - 16 := by bv_omega
  rw [translateAddr, translateAddr, hseg', hoff']
  omega

/-- Settles O15: a write is seen through every pair with its flat address and through no other, and moving 16 between
segment and offset keeps the flat address. -/
theorem pairsWithOneFlatAddressAreOneCell : Obligations.PairsWithOneFlatAddressAreOneCell := by
  refine ⟨fun s t seg off seg' off' v hw h => ?_, fun s seg off hseg hoff => ?_⟩
  · have hread : memReadSeg t seg' off' =
        if translateAddr seg' off' = translateAddr seg off then some v else memReadSeg s seg' off' :=
      readCell_of_writeCell hw h (translateAddr seg' off')
    exact ⟨fun heq => hread.trans (if_pos heq.symm), fun hne => hread.trans (if_neg hne.symm)⟩
  · rw [memReadSeg, memReadSeg, translateAddr_next_segment hseg hoff]

/-- Settles O17: by induction on the image. Its first byte is loaded first and lies below the rest, which leaves it alone. -/
theorem loadedImageLiesInTheStore : Obligations.LoadedImageLiesInTheStore := by
  intro s a bytes k v hw hk hlt
  induction bytes generalizing s a k with
  | nil => exact nomatch hk
  | cons w rest ih =>
    rw [State.loadImage]
    cases k with
    | zero =>
      obtain rfl : w = v := Option.some.inj hk
      exact (readCell_loadImage_of_lt rest _ (Nat.lt_succ_self a)).trans (readCell_loadCell_self hw hlt w)
    | succ k =>
      have haddr : a + (k + 1) = a + 1 + k := by omega
      rw [haddr] at hlt ⊢
      exact ih (s.loadCell a w) (a + 1) k (State.loadCell_keeps_wf a w hw) hk ((State.loadCell_cfg s a w).symm ▸ hlt)

end Sys2Proof
end

section
/-! PROOFS. The remaining control transfers, add and hlt (41_control_transfer.md, 43_alu_compare.md, 44_halt.md): which
byte 1 decodes to each, and what its executor answers. -/

namespace Sys2Proof

open Machine

/-! ### jmp $seg:rA -/

theorem decode_jmpFar {r1 : Nat} (h : r1 < 16) (b2 : Byte) :
    decode (BitVec.ofNat 8 (0x10 + r1)) b2 = .ok (.jmpFar r1 b2) :=
  decode_encodeByte1 .jmp true h b2

/-- The far jump checks its one index, then writes `ip` and `cs` (R86). -/
theorem exec_jmpFar (r1 : Nat) (seg : Byte) (s : State) :
    exec (.jmpFar r1 seg) s = withReg r1 s fun a => .next ((s.setIp (s.reg a)).setReg .cs seg) := rfl

/-- Settles O33: byte 1 is the encoder's, and the executor is one checked index whose register is read in the state before
`cs` is written. -/
theorem jmpFarRule : Obligations.JmpFarRule := by
  refine ⟨fun r1 b2 h => ⟨decode_jmpFar h b2, rfl⟩, fun s r1 seg a ha => ?_, fun s r1 seg h => ?_⟩
  · exact (exec_jmpFar r1 seg s).trans (withReg_of_some ha s _)
  · exact (exec_jmpFar r1 seg s).trans (withReg_of_gt h s _)

/-! ### jmpe: taken or not -/

theorem State.flagsEqual_eq_true_iff (s : State) : s.flagsEqual = true ↔ s.flags = 0x00#8 := by
  simp [State.flagsEqual, flagEqual]

section
variable {s : State}

/-- A near jmpe that is taken is a near jmp (R87). -/
theorem exec_jmpeNear_of_equal (h : s.flags = 0x00#8) (r1 : Nat) : exec (.jmpeNear r1) s = exec (.jmpNear r1) s :=
  if_pos ((State.flagsEqual_eq_true_iff s).mpr h)

theorem exec_jmpeNear_of_not_equal (h : s.flags ≠ 0x00#8) (r1 : Nat) : exec (.jmpeNear r1) s = .next s :=
  if_neg (mt (State.flagsEqual_eq_true_iff s).mp h)

/-- A far jmpe that is taken checks both indices, then writes `ip` and `cs` (R88). -/
theorem exec_jmpeFar_of_equal (h : s.flags = 0x00#8) (r1 r2 : Nat) :
    exec (.jmpeFar r1 r2) s = withRegs r1 r2 s fun a b => .next ((s.setIp (s.reg a)).setReg .cs (s.reg b)) :=
  if_pos ((State.flagsEqual_eq_true_iff s).mpr h)

theorem exec_jmpeFar_of_not_equal (h : s.flags ≠ 0x00#8) (r1 r2 : Nat) : exec (.jmpeFar r1 r2) s = .next s :=
  if_neg (mt (State.flagsEqual_eq_true_iff s).mp h)

end

theorem decode_jmpeNear {r1 : Nat} (h : r1 < 16) (b2 : Byte) :
    decode (BitVec.ofNat 8 (0xC0 + r1)) b2 = .ok (.jmpeNear r1) :=
  decode_encodeByte1 .jmpe false h b2

/-- Settles O34: byte 1 is the encoder's; a jump taken is the near jmp, with its two outcomes, and one not taken answers
the state as it is. -/
theorem jmpeNearRule : Obligations.JmpeNearRule := by
  obtain ⟨-, hjmp, hraise⟩ := jmpNearRule
  refine ⟨fun r1 b2 h => ⟨decode_jmpeNear h b2, rfl⟩, fun s r1 a hf ha => ?_, fun s r1 hf h => ?_, fun s r1 hf => ?_⟩
  · exact (exec_jmpeNear_of_equal hf r1).trans (hjmp s r1 a ha)
  · exact (exec_jmpeNear_of_equal hf r1).trans (hraise s r1 h)
  · exact exec_jmpeNear_of_not_equal hf r1

theorem decode_jmpeFar {r1 : Nat} (h : r1 < 16) (b2 : Byte) :
    decode (BitVec.ofNat 8 (0xD0 + r1)) b2 = .ok (.jmpeFar r1 b2.toNat) :=
  decode_encodeByte1 .jmpe true h b2

/-- Settles O35: byte 1 is the encoder's; a jump taken is two checked indices whose registers are read before either
write, and one not taken answers the state as it is. -/
theorem jmpeFarRule : Obligations.JmpeFarRule := by
  refine ⟨fun r1 b2 h => ⟨decode_jmpeFar h b2, rfl⟩, fun s r1 r2 a b hf ha hb => ?_, fun s r1 r2 hf h => ?_,
    fun s r1 r2 hf => ?_⟩
  · exact (exec_jmpeFar_of_equal hf r1 r2).trans (withRegs_of_some ha hb s _)
  · exact (exec_jmpeFar_of_equal hf r1 r2).trans (withRegs_of_gt h s _)
  · exact exec_jmpeFar_of_not_equal hf r1 r2

/-! ### add -/

section
variable {a b : Byte}

theorem withSum_of_le (h : a.toNat + b.toNat ≤ 0xFF) (s : State) (next : Byte → Result) :
    withSum a b s next = next (BitVec.ofNat 8 (a.toNat + b.toNat)) :=
  ((withSum_cases a b s next).resolve_right fun hover => Nat.not_lt.mpr h hover.1).2

theorem withSum_of_gt (h : 0xFF < a.toNat + b.toNat) (s : State) (next : Byte → Result) :
    withSum a b s next = raise .arithmeticOverflow s :=
  ((withSum_cases a b s next).resolve_left fun hfits => Nat.not_lt.mpr hfits.1 h).2

/-- A sum that fits 8 bits is the true sum (R95, R102). -/
theorem toNat_ofNat_sum (h : a.toNat + b.toNat ≤ 0xFF) :
    (BitVec.ofNat 8 (a.toNat + b.toNat)).toNat = a.toNat + b.toNat :=
  (BitVec.toNat_ofNat _ 8).trans (Nat.mod_eq_of_lt (Nat.lt_succ_of_le h))

end

theorem decode_addReg {r1 : Nat} (h : r1 < 16) (b2 : Byte) :
    decode (BitVec.ofNat 8 (0x60 + r1)) b2 = .ok (.addReg r1 b2.toNat) :=
  decode_encodeByte1 .add false h b2

/-- The addition checks both indices, then the sum, then writes its destination (R95). -/
theorem exec_addReg (r1 r2 : Nat) (s : State) :
    exec (.addReg r1 r2) s =
      withRegs r1 r2 s fun a b => withSum (s.reg a) (s.reg b) s fun v => .next (s.setReg a v) := rfl

theorem exec_addReg_of_some {r1 r2 : Nat} {a b : Reg} (ha : Reg.ofIndex r1 = some a) (hb : Reg.ofIndex r2 = some b)
    (s : State) : exec (.addReg r1 r2) s = withSum (s.reg a) (s.reg b) s fun v => .next (s.setReg a v) :=
  (exec_addReg r1 r2 s).trans (withRegs_of_some ha hb s _)

/-- Settles O40: the index check of `withRegs` comes first, and for valid indices the two laws of `withSum`, split at 255,
give the true sum and the raise. -/
theorem addRegisterRule : Obligations.AddRegisterRule := by
  refine ⟨fun r1 b2 h => ⟨decode_addReg h b2, rfl⟩, fun s r1 r2 a b ha hb hle => ?_, fun s r1 r2 a b ha hb hgt => ?_,
    fun s r1 r2 h => ?_⟩
  · exact ⟨_, toNat_ofNat_sum hle, (exec_addReg_of_some ha hb s).trans (withSum_of_le hle s _)⟩
  · exact (exec_addReg_of_some ha hb s).trans (withSum_of_gt hgt s _)
  · exact (exec_addReg r1 r2 s).trans (withRegs_of_gt h s _)

theorem decode_addImm {r1 : Nat} (h : r1 < 16) (b2 : Byte) :
    decode (BitVec.ofNat 8 (0x70 + r1)) b2 = .ok (.addImm r1 b2) :=
  decode_encodeByte1 .add true h b2

/-- The addition of an immediate checks its one index, then the sum, then writes that register (R96). -/
theorem exec_addImm (r1 : Nat) (imm : Byte) (s : State) :
    exec (.addImm r1 imm) s = withReg r1 s fun a => withSum (s.reg a) imm s fun v => .next (s.setReg a v) := rfl

theorem exec_addImm_of_some {r1 : Nat} {a : Reg} (ha : Reg.ofIndex r1 = some a) (imm : Byte) (s : State) :
    exec (.addImm r1 imm) s = withSum (s.reg a) imm s fun v => .next (s.setReg a v) :=
  (exec_addImm r1 imm s).trans (withReg_of_some ha s _)

/-- Settles O41: the index check of `withReg` comes first, and for a valid index the two laws of `withSum`, split at 255,
give the true sum and the raise. -/
theorem addImmediateRule : Obligations.AddImmediateRule := by
  refine ⟨fun r1 b2 h => ⟨decode_addImm h b2, rfl⟩, fun s r1 imm a ha hle => ?_, fun s r1 imm a ha hgt => ?_,
    fun s r1 imm h => ?_⟩
  · exact ⟨_, toNat_ofNat_sum hle, (exec_addImm_of_some ha imm s).trans (withSum_of_le hle s _)⟩
  · exact (exec_addImm_of_some ha imm s).trans (withSum_of_gt hgt s _)
  · exact (exec_addImm r1 imm s).trans (withReg_of_gt h s _)

/-! ### hlt -/

theorem decode_hlt {r1 : Nat} (h : r1 < 16) (b2 : Byte) : decode (BitVec.ofNat 8 (0xE0 + r1)) b2 = .ok (.hlt r1) :=
  decode_encodeByte1 .hlt false h b2

theorem decode_hlt2 {r1 : Nat} (h : r1 < 16) (b2 : Byte) :
    decode (BitVec.ofNat 8 (0xF0 + r1)) b2 = .ok (.hlt2 r1 b2) :=
  decode_encodeByte1 .hlt true h b2

/-- The halt raises in every state, whatever its operands are (R103, R104). -/
theorem exec_of_opcode_hlt {i : Instr} (h : i.opcode = .hlt) (s : State) :
    exec i s = .next { s with status := .terminated (.programHalted s.flags) } := by
  cases i with
  | hlt | hlt2 => rfl
  | _ => exact nomatch h

/-- Settles O47: byte 1 is the encoder's, and the executor is the raise. -/
theorem hltRule : Obligations.HltRule :=
  ⟨fun _ b2 h => ⟨decode_hlt h b2, rfl⟩, fun s _ => exec_of_opcode_hlt rfl s⟩

/-- Settles O48: byte 1 is the encoder's, and the executor is the raise. -/
theorem hltTwoByteRule : Obligations.HltTwoByteRule :=
  ⟨fun _ b2 h => ⟨decode_hlt2 h b2, rfl⟩, fun s _ _ => exec_of_opcode_hlt rfl s⟩

end Sys2Proof
end

section
/-! PROOFS. The raise table (60_exceptions.md R118 to R120): the reasons of each row, and what the executor of a form
answers when its row names one and when it names none. -/

namespace Sys2Proof.Machine

/-! ### The reasons of the raise table -/

section
variable {i : Instr} {s : State} {r : Reason}

/-- The reasons that the rows name: InvalidOpcode in none, OutOfBounds for a data access that names no cell only,
ProgramHalted for hlt only and with the flags register. -/
theorem reason_of_raises (h : Raises i s r) :
    r = .invalidRegister ∨ r = .arithmeticOverflow ∨ (r = .outOfBounds ∧ ∃ off, DataOutOfBounds s off) ∨
      (r = .programHalted s.flags ∧ i.opcode = .hlt) := by
  cases i with
  | movmLoad | movmStore =>
    rcases h with ⟨hr, -⟩ | ⟨hr, -, a, -, hout⟩
    · exact .inl hr
    · exact .inr (.inr (.inl ⟨hr, s.reg a, hout⟩))
  | addReg | addImm =>
    rcases h with ⟨hr, -⟩ | ⟨hr, -⟩
    · exact .inl hr
    · exact .inr (.inl hr)
  | hlt | hlt2 => exact .inr (.inr (.inr ⟨h, rfl⟩))
  | _ => exact .inl h.1

theorem ne_invalidOpcode_of_raises (h : Raises i s r) : r ≠ .invalidOpcode := by
  rintro rfl
  rcases reason_of_raises h with h | h | ⟨h, -⟩ | ⟨h, -⟩ <;> exact nomatch h

/-- No flat address of the data window is 4336 or more (20_memory.md R31), so a larger store shuts OutOfBounds out. -/
theorem memSize_lt_of_raises_outOfBounds (h : Raises i s .outOfBounds) : s.cfg.memSize < 4336 := by
  rcases reason_of_raises h with h | h | ⟨-, off, hout⟩ | ⟨h, -⟩
  · exact nomatch h
  · exact nomatch h
  · exact Nat.lt_succ_of_le (le_trans hout (translateAddr_le (s.reg .ds) off))
  · exact nomatch h

theorem raises_programHalted {f : Byte} (h : Raises i s (.programHalted f)) : f = s.flags ∧ i.opcode = .hlt := by
  rcases reason_of_raises h with h | h | ⟨h, -⟩ | ⟨h, hi⟩
  · exact nomatch h
  · exact nomatch h
  · exact nomatch h
  · exact ⟨Reason.programHalted.inj h, hi⟩

/-- A form whose row names a reason raises it: by the rule of the form. -/
theorem exec_of_raises (h : Raises i s r) : exec i s = .next { s with status := .terminated r } := by
  cases i with
  | jmpNear | jmpFar | movrImm | xorImm | cmpImm =>
    obtain ⟨rfl, hbad⟩ := h
    exact withReg_of_gt hbad s _
  | movrReg | xorReg | cmpReg =>
    obtain ⟨rfl, hbad⟩ := h
    exact withRegs_of_gt hbad s _
  | movmLoad r1 r2 =>
    obtain ⟨-, -, hregs, haddr⟩ := movmLoadRule
    rcases h with ⟨rfl, hbad⟩ | ⟨rfl, h1, b, hb, hout⟩
    · exact hregs s r1 r2 hbad
    · exact haddr s r1 r2 b h1 hb hout
  | movmStore r1 r2 =>
    obtain ⟨-, -, hregs, haddr⟩ := movmStoreRule
    rcases h with ⟨rfl, hbad⟩ | ⟨rfl, h2, a, ha, hout⟩
    · exact hregs s r1 r2 hbad
    · exact haddr s r1 r2 a h2 ha hout
  | addReg r1 r2 =>
    obtain ⟨-, -, hover, hregs⟩ := addRegisterRule
    rcases h with ⟨rfl, hbad⟩ | ⟨rfl, a, b, ha, hb, hsum⟩
    · exact hregs s r1 r2 hbad
    · exact hover s r1 r2 a b ha hb hsum
  | addImm r1 imm =>
    obtain ⟨-, -, hover, hregs⟩ := addImmediateRule
    rcases h with ⟨rfl, hbad⟩ | ⟨rfl, a, ha, hsum⟩
    · exact hregs s r1 imm hbad
    · exact hover s r1 imm a ha hsum
  | jmpeNear r1 =>
    obtain ⟨-, -, hregs, -⟩ := jmpeNearRule
    obtain ⟨rfl, hf, hbad⟩ := h
    exact hregs s r1 hf hbad
  | jmpeFar r1 r2 =>
    obtain ⟨-, -, hregs, -⟩ := jmpeFarRule
    obtain ⟨rfl, hf, hbad⟩ := h
    exact hregs s r1 r2 hf hbad
  | hlt | hlt2 =>
    obtain rfl := h
    exact exec_of_opcode_hlt rfl s

end

/-! ### What an executor answers -/

theorem Effect.exists_next {i : Instr} {s : State} {o : Result} (h : Effect i s o) : ∃ t, o = .next t := by
  cases h <;> exact ⟨_, rfl⟩

theorem exists_exec_eq_next (i : Instr) (s : State) : ∃ t, exec i s = .next t :=
  (exec_effect i s).exists_next

section
variable {i : Instr} {s t : State}

theorem effect_of_exec (h : exec i s = .next t) : Effect i s (.next t) :=
  h ▸ exec_effect i s

/-- An executor keeps status, or it raises a reason of its row and changes nothing else. -/
theorem exec_status_cases (h : exec i s = .next t) :
    t.status = s.status ∨ ∃ r, Raises i s r ∧ t = { s with status := .terminated r } := by
  cases effect_of_exec h with
  | raised r hr => exact .inr ⟨r, hr, rfl⟩
  | wrote | stored | compared | near | far | notTaken => exact .inl rfl

/-- The same, of status alone. -/
theorem exec_status (h : exec i s = .next t) :
    t.status = s.status ∨ ∃ r, Raises i s r ∧ t.status = .terminated r :=
  (exec_status_cases h).imp_right fun ⟨r, hr, ht⟩ => ⟨r, hr, ht ▸ rfl⟩

end

end Sys2Proof.Machine

namespace Sys2Proof

open Machine

/-- Settles O24: by the rules of the forms where a row names a reason, and by the effects of an executor where none does. -/
theorem whichFormRaisesWhat : Obligations.WhichFormRaisesWhat := by
  refine ⟨fun i s r h => exec_of_raises h, fun i s hnone => ?_⟩
  obtain ⟨t, ht⟩ := exists_exec_eq_next i s
  refine ⟨t, ht, (exec_status_cases ht).resolve_right fun hraised => ?_⟩
  obtain ⟨r, hr, -⟩ := hraised
  exact hnone r hr

end Sys2Proof
end

section
/-! PROOFS. Which executor writes which piece of state (10_state.md R23), and the frames of the forms. -/

namespace Sys2Proof.Machine

section
variable {i : Instr} {s t : State}

theorem exec_cfg (h : exec i s = .next t) : t.cfg = s.cfg := by
  cases effect_of_exec h <;> rfl

theorem exec_ip_cases (h : exec i s = .next t) : t.ip = s.ip ∨ i.opcode = .jmp ∨ i.opcode = .jmpe := by
  cases effect_of_exec h with
  | raised | wrote | stored | compared | notTaken => exact .inl rfl
  | near _ hi | far _ _ hi => exact .inr (hi.imp_right And.left)

theorem exec_flags_cases (h : exec i s = .next t) : t.flags = s.flags ∨ i.opcode = .cmp := by
  cases effect_of_exec h with
  | raised | wrote | stored | near | far | notTaken => exact .inl rfl
  | compared _ _ hi => exact .inr hi

theorem exec_mem_cases (h : exec i s = .next t) :
    t.mem = s.mem ∨ ∃ r1 r2 a b, i = .movmStore r1 r2 ∧ Reg.ofIndex r1 = some a ∧ Reg.ofIndex r2 = some b ∧
      dataAddr s (s.reg a) < s.cfg.memSize ∧
      t = { s with mem := Memory.write s.mem (dataAddr s (s.reg a)) (s.reg b) } := by
  cases effect_of_exec h with
  | raised | wrote | compared | near | far | notTaken => exact .inl rfl
  | stored r1 r2 a b hi ha hb hlt => exact .inr ⟨r1, r2, a, b, hi, ha, hb, hlt, rfl⟩

theorem exec_reg_cases (h : exec i s = .next t) (q : Reg) :
    t.reg q = s.reg q ∨ (WritesRegister i ∧ Reg.ofIndex i.operand1 = some q) ∨
      (q = .cs ∧ i.mode = true ∧ (i.opcode = .jmp ∨ (i.opcode = .jmpe ∧ s.flags = 0x00#8))) := by
  cases effect_of_exec h with
  | raised | stored | compared | near | notTaken => exact .inl rfl
  | wrote a v hw ha =>
    by_cases hqa : q = a
    · exact .inr (.inl ⟨hw, hqa ▸ ha⟩)
    · exact .inl (State.reg_setReg_of_ne s v hqa)
  | far v w hi hm =>
    by_cases hq : q = .cs
    · exact .inr (.inr ⟨hq, hm, hi⟩)
    · exact .inl (State.reg_setReg_of_ne (s.setIp v) w hq)

/-- A jmpe that is not taken changes nothing (41_control_transfer.md R87, R88). -/
theorem exec_of_opcode_jmpe_of_not_equal (hi : i.opcode = .jmpe) (hf : s.flags ≠ 0x00#8) : exec i s = .next s := by
  cases i with
  | jmpeNear r1 => exact exec_jmpeNear_of_not_equal hf r1
  | jmpeFar r1 r2 => exact exec_jmpeFar_of_not_equal hf r1 r2
  | _ => exact nomatch hi

theorem exec_mem_of_ne_movm (h : exec i s = .next t) (hi : i.opcode ≠ .movm ∨ i.mode = false) : t.mem = s.mem := by
  refine (exec_mem_cases h).resolve_right ?_
  rintro ⟨r1, r2, a, b, rfl, -⟩
  exact hi.elim (fun hop => hop rfl) fun hmode => nomatch hmode

theorem SameCells.of_mem_eq (h : t.mem = s.mem) : SameCells s t :=
  fun x => congrArg (Memory.read · x) h

end

/-! ### The forms that write a register -/

theorem writesRegister_iff (i : Instr) : WritesRegister i ↔
    i.opcode ≠ .jmp ∧ i.opcode ≠ .jmpe ∧ i.opcode ≠ .cmp ∧ i.opcode ≠ .hlt ∧ (i.opcode ≠ .movm ∨ i.mode = false) := by
  unfold WritesRegister
  cases i.opcode <;> simp

end Sys2Proof.Machine

namespace Sys2Proof

open Machine

/-- Settles O28: piece by piece, by what an executor can do to it. -/
theorem whoWritesWhat : Obligations.WhoWritesWhat := by
  intro i s t h
  refine ⟨fun hne => (exec_ip_cases h).resolve_left hne, fun hne => (exec_flags_cases h).resolve_left hne, fun hne => ?_,
    fun q hq hne => ?_, fun hne => ?_, exec_cfg h⟩
  · obtain ⟨r1, r2, a, b, rfl, -⟩ := (exec_mem_cases h).resolve_left hne
    exact ⟨rfl, rfl⟩
  · exact ((exec_reg_cases h q).resolve_left hne).resolve_right fun hcs => hq hcs.1
  · rcases (exec_reg_cases h .cs).resolve_left hne with ⟨hw, hcs⟩ | ⟨-, hm, hjmp | ⟨hjmpe, hf⟩⟩
    · exact .inl ⟨hw, Reg.eq_index_of_ofIndex hcs⟩
    · exact .inr (.inl ⟨hjmp, hm⟩)
    · exact .inr (.inr ⟨hjmpe, hm, hf⟩)

/-- Settles O49: a form that writes a register is no transfer, compare or store, which alone write the other pieces. -/
theorem frameOfRegisterWriters : Obligations.FrameOfRegisterWriters := by
  intro i s t hw h
  obtain ⟨hjmp, hjmpe, hcmp, -, hstore⟩ := (writesRegister_iff i).mp hw
  refine ⟨fun q hq => ?_, (exec_ip_cases h).resolve_right (not_or.mpr ⟨hjmp, hjmpe⟩),
    (exec_flags_cases h).resolve_right hcmp, exec_cfg h, .of_mem_eq (exec_mem_of_ne_movm h hstore), exec_status h⟩
  rcases exec_reg_cases h q with hsame | ⟨-, hdest⟩ | ⟨-, -, hop | ⟨hop, -⟩⟩
  · exact hsame
  · exact absurd hdest hq
  · exact absurd hop hjmp
  · exact absurd hop hjmpe

/-- Settles O50: cmp is neither a register writer nor a transfer nor a store, and a raise keeps flags. -/
theorem frameOfCompares : Obligations.FrameOfCompares := by
  intro i s t hcmp h
  refine ⟨fun q => ?_, ?_, exec_cfg h, .of_mem_eq (exec_mem_of_ne_movm h (.inl (by simp [hcmp]))), ?_⟩
  · refine (exec_reg_cases h q).resolve_right ?_
    simp [writesRegister_iff, hcmp]
  · refine (exec_ip_cases h).resolve_right ?_
    simp [hcmp]
  · exact (exec_status_cases h).imp_right fun ⟨r, hr, ht⟩ => ⟨r, hr, ht ▸ rfl, ht ▸ rfl⟩

/-- Settles O51: a transfer is no register writer, so it writes cs at most, in mode 1, and no compare or store. -/
theorem frameOfTransfers : Obligations.FrameOfTransfers := by
  intro i s t hop h
  have hw : ¬ WritesRegister i := fun hw => by
    obtain ⟨hjmp, hjmpe, -⟩ := (writesRegister_iff i).mp hw
    exact hop.elim hjmp hjmpe
  have hreg (q : Reg) : t.reg q = s.reg q ∨ (q = .cs ∧ i.mode = true) :=
    (exec_reg_cases h q).imp_right fun hwrites =>
      (hwrites.resolve_left fun hdest => hw hdest.1).imp_right And.left
  have hcmp : i.opcode ≠ .cmp := by rcases hop with hop | hop <;> simp [hop]
  have hmovm : i.opcode ≠ .movm := by rcases hop with hop | hop <;> simp [hop]
  refine ⟨fun q hq => (hreg q).resolve_right fun hcs => hq hcs.1,
    fun hm => (hreg .cs).resolve_right fun hcs => absurd (hm.symm.trans hcs.2) Bool.false_ne_true, fun hjmpe hf => ?_,
    (exec_flags_cases h).resolve_right hcmp, exec_cfg h, .of_mem_eq (exec_mem_of_ne_movm h (.inl hmovm)), exec_status h⟩
  exact Host.Outcome.next.inj (h.symm.trans (exec_of_opcode_jmpe_of_not_equal hjmpe hf))

/-- Settles O52: the store writes no register, flag or ip, and memory at the data address of its offset register only,
and that only when both indices are valid and nothing is raised. -/
theorem frameOfStores : Obligations.FrameOfStores := by
  intro s t r1 r2 h
  refine ⟨fun q => ?_, ?_, ?_, exec_cfg h, fun a ha x hx => ?_, fun hbad => ?_, ?_⟩
  · refine (exec_reg_cases h q).resolve_right ?_
    simp [writesRegister_iff, Instr.opcode, Instr.mode]
  · exact (exec_ip_cases h).resolve_right fun hop => nomatch hop
  · exact (exec_flags_cases h).resolve_right fun hop => nomatch hop
  · rcases exec_mem_cases h with hmem | ⟨_, _, a', b, hi, ha', -, -, rfl⟩
    · exact SameCells.of_mem_eq hmem x
    · obtain ⟨rfl, rfl⟩ := Instr.movmStore.inj hi
      obtain rfl : a = a' := Option.some.inj (ha.symm.trans ha')
      exact Memory.read_write_of_ne s.mem _ hx
  · obtain rfl := Host.Outcome.next.inj (h.symm.trans (exec_of_raises (.inl ⟨rfl, hbad⟩)))
    exact fun x => rfl
  · exact (exec_status_cases h).imp_right fun ⟨r, hr, ht⟩ => ⟨r, hr, ht ▸ rfl, ht ▸ fun x => rfl⟩

/-- Settles O53: hlt raises in every state, and a raise changes status only. -/
theorem frameOfHalts : Obligations.FrameOfHalts := by
  intro i s t hi h
  obtain rfl := Host.Outcome.next.inj (h.symm.trans (exec_of_opcode_hlt hi s))
  exact ⟨fun q => rfl, rfl, rfl, rfl, fun x => rfl, s.flags, rfl⟩

end Sys2Proof
end

section
/-! PROOFS. Fetch and step (40_execution_cycle.md R70 to R75): when the fetch fails and what it brings, the three things
one step can be, and how a step ends a run. -/

namespace Sys2Proof.Machine

/-! ### Fetch -/

theorem fetchAddr2_eq (s : State) : fetchAddr2 s = s.regs.cs.toNat * 16 + (s.ip.toNat + 1) % 256 :=
  congrArg (s.regs.cs.toNat * 16 + ·) (BitVec.toNat_add s.ip 1#8)

theorem fetchAddr1_ne_fetchAddr2 (s : State) : fetchAddr1 s ≠ fetchAddr2 s := by
  have h1 : fetchAddr1 s = s.regs.cs.toNat * 16 + s.ip.toNat := rfl
  rw [h1, fetchAddr2_eq]
  omega

theorem fetch_eq_none_iff {s : State} :
    fetch s = none ↔ s.cfg.memSize ≤ fetchAddr1 s ∨ s.cfg.memSize ≤ fetchAddr2 s := by
  rcases fetch_cases s with ⟨h1, h2, h⟩ | ⟨hout, h⟩
  · simp [h, h1, h2]
  · simp [h, hout]

theorem fetch_of_lt {s : State} (h1 : fetchAddr1 s < s.cfg.memSize) (h2 : fetchAddr2 s < s.cfg.memSize) :
    fetch s = some (Memory.read s.mem (fetchAddr1 s), Memory.read s.mem (fetchAddr2 s)) := by
  rcases fetch_cases s with ⟨-, -, h⟩ | ⟨hout | hout, -⟩
  · exact h
  · exact absurd h1 (Nat.not_lt.mpr hout)
  · exact absurd h2 (Nat.not_lt.mpr hout)

theorem fetch_eq_some_iff {s : State} {b1 b2 : Byte} :
    fetch s = some (b1, b2) ↔ readCell s (fetchAddr1 s) = some b1 ∧ readCell s (fetchAddr2 s) = some b2 := by
  rcases fetch_cases s with ⟨h1, h2, h⟩ | ⟨hout | hout, h⟩
  · simp [h, readCell_of_lt h1, readCell_of_lt h2]
  · simp [h, readCell_eq_none_iff.mpr hout]
  · simp [h, readCell_eq_none_iff.mpr hout]

/-- No fetch address is 4336 or more (20_memory.md R31). -/
theorem memSize_lt_of_fetch_eq_none {s : State} (h : fetch s = none) : s.cfg.memSize < 4336 := by
  have h1 : fetchAddr1 s ≤ 4335 := translateAddr_le ..
  have h2 : fetchAddr2 s ≤ 4335 := translateAddr_le ..
  have hout := fetch_eq_none_iff.mp h
  omega

/-! ### One step -/

section
variable {s t : State}

theorem step_of_fetch_none (hrun : s.status = .running) (h : fetch s = none) :
    step s = .next { s with status := .terminated .outOfBounds } :=
  (step_of_running hrun).trans (cycle_of_fetch_none h)

theorem step_of_fetch {b1 b2 : Byte} {i : Instr} (hrun : s.status = .running) (hf : fetch s = some (b1, b2))
    (hd : decode b1 b2 = .ok i) : step s = exec i (s.advanceIp i.length) :=
  (step_of_running hrun).trans (cycle_of_decode hf hd)

/-- All that a step can be: nothing, since the machine has terminated; a fetch that fails; or a fetch whose bytes decode
and whose instruction is executed with `ip` advanced. -/
theorem step_cases (s : State) :
    (∃ r, s.status = .terminated r ∧ step s = .next s) ∨
      (s.status = .running ∧ fetch s = none ∧ step s = .next { s with status := .terminated .outOfBounds }) ∨
      (s.status = .running ∧ ∃ b1 b2 i, fetch s = some (b1, b2) ∧ decode b1 b2 = .ok i ∧
        step s = exec i (s.advanceIp i.length)) := by
  cases hs : s.status with
  | terminated r => exact .inl ⟨r, rfl, step_of_terminated hs⟩
  | running =>
    cases hf : fetch s with
    | none => exact .inr (.inl ⟨rfl, rfl, step_of_fetch_none hs hf⟩)
    | some b =>
      obtain ⟨b1, b2⟩ := b
      obtain ⟨i, hd⟩ := exists_decode_eq_ok b1 b2
      exact .inr (.inr ⟨rfl, b1, b2, i, rfl, hd, step_of_fetch hs hf hd⟩)

theorem exists_step_eq_next (s : State) : ∃ t, step s = .next t := by
  rcases step_cases s with ⟨r, -, hstep⟩ | ⟨-, -, hstep⟩ | ⟨-, b1, b2, i, -, -, hstep⟩
  · exact ⟨s, hstep⟩
  · exact ⟨_, hstep⟩
  · exact hstep ▸ exists_exec_eq_next i _

/-- A running machine terminates in the fetch, or by a reason that the row of the executed form names. -/
theorem step_terminates {r : Reason} (hrun : s.status = .running) (h : step s = .next t)
    (ht : t.status = .terminated r) :
    (fetch s = none ∧ r = .outOfBounds ∧ t = { s with status := .terminated r }) ∨
      ∃ b1 b2 i, fetch s = some (b1, b2) ∧ decode b1 b2 = .ok i ∧ Raises i (s.advanceIp i.length) r ∧
        t = { s.advanceIp i.length with status := .terminated r } := by
  rcases step_cases s with ⟨r', hs, -⟩ | ⟨-, hf, hstep⟩ | ⟨-, b1, b2, i, hf, hd, hstep⟩
  · exact nomatch hrun.symm.trans hs
  · obtain rfl := Host.Outcome.next.inj (hstep.symm.trans h)
    obtain rfl := Status.terminated.inj ht
    exact .inl ⟨hf, rfl, rfl⟩
  · rcases exec_status_cases (hstep.symm.trans h) with hsame | ⟨r', hr, rfl⟩
    · exact nomatch hrun.symm.trans (hsame.symm.trans ht)
    · obtain rfl := Status.terminated.inj ht
      exact .inr ⟨b1, b2, i, hf, hd, hr, rfl⟩

end

end Sys2Proof.Machine
end

section
/-! PROOFS. The invariant of the machine: it holds at reset, every step keeps it, and so does every run; and a run that has
terminated stays where it is (60_exceptions.md R116). -/

namespace Sys2Proof.Machine

/-! ### The invariant, update by update -/

/-- The start of a run meets the invariant, for any size and any canonical contents of the store. -/
theorem resetWith_inv {cfg : Config} {mem : Memory} (hw : Memory.wf mem = true) (hin : ∀ c ∈ mem, c.1 < cfg.memSize) :
    (State.resetWith cfg mem).Inv where
  flagsLegal := .inl rfl
  memCanonical := hw
  memInStore := hin
  noInvalidOpcode := nofun
  haltReportsFlags := nofun

namespace State.Inv

variable {s : State}

/-- Registers and `ip` are free. -/
theorem set_regs_ip (hinv : s.Inv) (regs : RegFile) (ip : Byte) : ({ s with regs := regs, ip := ip } : State).Inv where
  flagsLegal := hinv.flagsLegal
  memCanonical := hinv.memCanonical
  memInStore := hinv.memInStore
  noInvalidOpcode := hinv.noInvalidOpcode
  haltReportsFlags := hinv.haltReportsFlags

theorem advanceIp (hinv : s.Inv) (n : Nat) : (s.advanceIp n).Inv :=
  hinv.set_regs_ip s.regs _

theorem set_status (hinv : s.Inv) {r : Reason} (hr : r ≠ .invalidOpcode) (hhalt : ∀ f, r = .programHalted f → f = s.flags) :
    ({ s with status := .terminated r } : State).Inv where
  flagsLegal := hinv.flagsLegal
  memCanonical := hinv.memCanonical
  memInStore := hinv.memInStore
  noInvalidOpcode := fun h => hr (Status.terminated.inj h)
  haltReportsFlags := fun f h => hhalt f (Status.terminated.inj h)

/-- Flags may be written while the machine runs: a halt must report the value they keep. -/
theorem set_flags (hinv : s.Inv) (hrun : s.status = .running) {f : Byte} (hf : LegalFlags f) : (s.setFlags f).Inv where
  flagsLegal := hf
  memCanonical := hinv.memCanonical
  memInStore := hinv.memInStore
  noInvalidOpcode := hinv.noInvalidOpcode
  haltReportsFlags := fun _ h => nomatch hrun.symm.trans h

theorem write_mem (hinv : s.Inv) {a : Nat} (ha : a < s.cfg.memSize) (v : Byte) :
    ({ s with mem := Memory.write s.mem a v } : State).Inv where
  flagsLegal := hinv.flagsLegal
  memCanonical := Memory.write_keeps_wf a v hinv.memCanonical
  memInStore := fun c hc => (Memory.mem_write hc).elim (hinv.memInStore c) fun hca => hca ▸ ha
  noInvalidOpcode := hinv.noInvalidOpcode
  haltReportsFlags := hinv.haltReportsFlags

end State.Inv

/-! ### The invariant, step by step -/

section
variable {s t : State}

theorem legalFlags_compareBytes (a b : Byte) : LegalFlags (compareBytes a b) := by
  obtain ⟨-, -, -, hlegal⟩ := compareIsUnsignedOrder a b
  exact hlegal

/-- Every effect of an executor of a running machine keeps the invariant. -/
theorem exec_keeps_inv {i : Instr} (hinv : s.Inv) (hrun : s.status = .running) (h : exec i s = .next t) : t.Inv := by
  cases effect_of_exec h with
  | raised r hr =>
    exact hinv.set_status (ne_invalidOpcode_of_raises hr) fun f hf => (raises_programHalted (hf ▸ hr)).1
  | wrote | near | far => exact hinv.set_regs_ip _ _
  | stored _ _ a b _ _ _ hlt => exact hinv.write_mem hlt _
  | compared a b => exact hinv.set_flags hrun (legalFlags_compareBytes a b)
  | notTaken => exact hinv

theorem step_keeps_inv (hinv : s.Inv) (h : step s = .next t) : t.Inv := by
  rcases step_cases s with ⟨r, -, hstep⟩ | ⟨-, -, hstep⟩ | ⟨hrun, b1, b2, i, -, -, hstep⟩
  · exact Host.Outcome.next.inj (hstep.symm.trans h) ▸ hinv
  · exact Host.Outcome.next.inj (hstep.symm.trans h) ▸ hinv.set_status nofun nofun
  · exact exec_keeps_inv (hinv.advanceIp i.length) hrun (hstep.symm.trans h)

theorem step_cfg (h : step s = .next t) : t.cfg = s.cfg := by
  rcases step_cases s with ⟨r, -, hstep⟩ | ⟨-, -, hstep⟩ | ⟨-, b1, b2, i, -, -, hstep⟩
  · exact Host.Outcome.next.inj (hstep.symm.trans h) ▸ rfl
  · exact Host.Outcome.next.inj (hstep.symm.trans h) ▸ rfl
  · exact exec_cfg (s := s.advanceIp i.length) (hstep.symm.trans h)

/-! ### Runs -/

theorem runFor_of_terminated {r : Reason} (hs : s.status = .terminated r) (k : Nat) : runFor k s = .next s := by
  induction k with
  | zero => exact runFor_zero s
  | succ k ih => exact (runFor_succ k (step_of_terminated hs)).trans ih

/-- A run is continued from the state it has reached. -/
theorem runFor_add {j : Nat} (h : runFor j s = .next t) (k : Nat) : runFor (j + k) s = runFor k t := by
  induction j generalizing s with
  | zero =>
    obtain rfl := Host.Outcome.next.inj ((runFor_zero s).symm.trans h)
    rw [Nat.zero_add]
  | succ j ih =>
    obtain ⟨u, hu⟩ := exists_step_eq_next s
    rw [Nat.add_right_comm, runFor_succ _ hu]
    exact ih ((runFor_succ j hu).symm.trans h)

end

end Sys2Proof.Machine

namespace Sys2Proof

open Machine

/-- Settles O10: each of the three is the start of a run on a canonical store. -/
theorem resetMeetsInvariant : Obligations.ResetMeetsInvariant :=
  ⟨resetWith_inv rfl fun _ hc => absurd hc List.not_mem_nil, fun _ _ hw hin => resetWith_inv hw hin,
    fun _ hinv => resetWith_inv hinv.memCanonical hinv.memInStore⟩

/-- Settles O21: a step is nothing, a raise in the fetch, or the advance of `ip` and one effect of an executor. -/
theorem stepKeepsInvariant : Obligations.StepKeepsInvariant :=
  fun _ _ hinv h => step_keeps_inv hinv h

/-- Settles O22: by induction on the number of steps, each of which answers a next state that meets the invariant. -/
theorem everyRunKeepsInvariant : Obligations.EveryRunKeepsInvariant := by
  intro s k hinv
  induction k generalizing s with
  | zero => exact ⟨s, runFor_zero s, hinv, rfl⟩
  | succ k ih =>
    obtain ⟨u, hu⟩ := exists_step_eq_next s
    obtain ⟨t, ht, htinv, hcfg⟩ := ih u (step_keeps_inv hinv hu)
    exact ⟨t, (runFor_succ k hu).trans ht, htinv, hcfg.trans (step_cfg hu)⟩

/-- Settles O20: a raise is one record update; a step of a terminated machine answers the same state, so by induction every
run does, and a run that has reached such a state is continued from there. -/
theorem terminationIsFinal : Obligations.TerminationIsFinal := by
  refine ⟨fun r s => rfl, fun s r k hs => runFor_of_terminated hs k, fun s t r j k h ht hjk => ?_⟩
  obtain ⟨d, rfl⟩ := Nat.exists_eq_add_of_le hjk
  exact (runFor_add h d).trans (runFor_of_terminated ht d)

end Sys2Proof
end

section
/-! PROOFS. The cycle (30_encoding.md R56, 40_execution_cycle.md section 1, 60_exceptions.md, 70_reset_and_hazards.md
section 5): what one step executes, and how it ends a run. -/

namespace Sys2Proof

open Machine

/-- Settles O6: the fetch needs both cells, a one-byte form is decoded from byte 1 alone, and after a jump that is not taken
`ip` is at the offset that byte 2 came from. -/
theorem byteTwoIsFetchedForEveryInstruction : Obligations.ByteTwoIsFetchedForEveryInstruction := by
  refine ⟨fun s => ?_, fun s hrun hf => step_of_fetch_none hrun hf, fun b1 b2 c2 i hd hlen => ?_,
    fun s b1 b2 r1 hrun hf hd hflags => ?_⟩
  · rw [fetch_eq_none_iff, fetchAddr2_eq]
    exact Iff.rfl
  · exact ⟨decode_of_length_one hd hlen c2, (encode_of_decode hd).trans (by rw [if_pos hlen])⟩
  · obtain ⟨-, hbyte2⟩ := fetch_eq_some_iff.mp hf
    have hexec : exec (.jmpeNear r1) (s.advanceIp 1) = .next (s.advanceIp 1) :=
      exec_jmpeNear_of_not_equal (s := s.advanceIp 1) hflags r1
    exact ⟨s.advanceIp 1, (step_of_fetch hrun hf hd).trans hexec, hrun, hbyte2⟩

/-- Settles O18: the two bytes are the fetch's, and the advance is an addition modulo 256. -/
theorem stepRunsTheDecodedInstruction : Obligations.StepRunsTheDecodedInstruction := by
  intro s b1 b2 i hrun h1 h2 hd
  have hf : fetch s = some (b1, b2) := fetch_eq_some_iff.mpr ⟨h1, (fetchAddr2_eq s).symm ▸ h2⟩
  have hip : s.ip + BitVec.ofNat 8 i.length = BitVec.ofNat 8 ((s.ip.toNat + i.length) % 256) :=
    BitVec.eq_of_toNat_eq (by simp)
  rw [step_of_fetch hrun hf hd, State.advanceIp, hip]

/-- Settles O19: a cycle that raises answers a next state too. -/
theorem everyStepAnswersANextState : Obligations.EveryStepAnswersANextState :=
  exists_step_eq_next

/-- Settles O23: by the two ways a running machine terminates. -/
theorem terminationIsPrecise : Obligations.TerminationIsPrecise := by
  intro s t r hrun h ht
  exact (step_terminates hrun h ht).imp_right fun ⟨b1, b2, i, hf, hd, _, ht⟩ => ⟨b1, b2, i, hf, hd, ht⟩

/-- Settles O25: a running machine terminates by OutOfBounds or by a reason of the raise table, and the table does not name
InvalidOpcode. -/
theorem invalidOpcodeIsUnreachable : Obligations.InvalidOpcodeIsUnreachable := by
  intro s t h ht
  cases hs : s.status with
  | terminated r =>
    obtain rfl := Host.Outcome.next.inj ((step_of_terminated hs).symm.trans h)
    exact hs.symm.trans ht
  | running =>
    rcases step_terminates hs h ht with ⟨-, hr, -⟩ | ⟨b1, b2, i, -, -, hr, -⟩
    · exact nomatch hr
    · exact absurd rfl (ne_invalidOpcode_of_raises hr)

/-! ### OutOfBounds and the size of the store -/

/-- The machine about to fetch at the highest flat address, with an empty store. -/
def highFetch (size : Nat) : State :=
  { State.resetWith ⟨size⟩ [] with regs := { State.reset.regs with cs := 0xFF#8 }, ip := 0xFF#8 }

theorem highFetch_inv (size : Nat) : (highFetch size).Inv :=
  (resetWith_inv (cfg := ⟨size⟩) rfl fun _ hc => absurd hc List.not_mem_nil).set_regs_ip _ _

/-- Byte 1 at segment and offset 0xFF is at flat address 4335. -/
theorem fetch_eq_none_of_high {s : State} (hsize : s.cfg.memSize < 4336) (hcs : s.regs.cs = 0xFF#8)
    (hip : s.ip = 0xFF#8) : fetch s = none := by
  have haddr : fetchAddr1 s = translateAddr 0xFF#8 0xFF#8 := congrArg₂ translateAddr hcs hip
  exact fetch_eq_none_iff.mpr (.inl (haddr ▸ Nat.le_of_lt_succ hsize))

/-- Settles O26: no fetch and no data address is above 4335, which is the address that segment and offset 0xFF name. -/
theorem outOfBoundsNeedsASmallStore : Obligations.OutOfBoundsNeedsASmallStore := by
  refine ⟨fun s t hsize hrun h ht => ?_, fun s hsize => readCell_eq_none_iff.mpr (Nat.le_of_lt_succ hsize),
    fun s hsize hrun hcs hip => step_of_fetch_none hrun (fetch_eq_none_of_high hsize hcs hip), fun size hsize => ?_⟩
  · refine Nat.not_lt.mpr hsize ?_
    rcases step_terminates hrun h ht with ⟨hf, -⟩ | ⟨b1, b2, i, -, -, hr, -⟩
    · exact memSize_lt_of_fetch_eq_none hf
    · exact memSize_lt_of_raises_outOfBounds hr
  · exact ⟨highFetch size, _, highFetch_inv size, rfl, rfl,
      step_of_fetch_none rfl (fetch_eq_none_of_high hsize rfl rfl), rfl⟩

/-! ### The end of a run -/

/-- A step ends a run successfully only by executing hlt, and reports the flags register. -/
theorem halt_of_step_successful {s t : State} {f : Byte} (hrun : s.status = .running) (h : step s = .next t)
    (ht : t.status = .terminated (.programHalted f)) :
    f = s.flags ∧ ∃ b1 b2 i, fetch s = some (b1, b2) ∧ decode b1 b2 = .ok i ∧ i.opcode = .hlt := by
  rcases step_terminates hrun h ht with ⟨-, hr, -⟩ | ⟨b1, b2, i, hf, hd, hr, -⟩
  · exact nomatch hr
  · obtain ⟨hflags, hop⟩ := raises_programHalted hr
    exact ⟨hflags, b1, b2, i, hf, hd, hop⟩

theorem status_cases (t : State) : t.status = .running ∨ t.Successful ∨ t.Faulted := by
  cases ht : t.status with
  | running => exact .inl rfl
  | terminated r =>
    by_cases hr : ∃ f, r = .programHalted f
    · exact .inr (.inl (hr.imp fun _ hf => ht.trans (congrArg Status.terminated hf)))
    · exact .inr (.inr ⟨r, ht, not_exists.mp hr⟩)

theorem not_successful_and_faulted (t : State) : ¬ (t.Successful ∧ t.Faulted) := by
  rintro ⟨⟨f, hf⟩, r, hr, hne⟩
  exact hne f (Status.terminated.inj (hr.symm.trans hf))

/-- Settles O27: hlt raises ProgramHalted with the flags register in every state, and no other form's row names it. -/
theorem onlyHltEndsARunSuccessfully : Obligations.OnlyHltEndsARunSuccessfully := by
  intro s t hrun h
  refine ⟨⟨fun ⟨f, ht⟩ => (halt_of_step_successful hrun h ht).2, fun ⟨b1, b2, i, hf, hd, hop⟩ => ?_⟩,
    fun ⟨f, ht⟩ => ?_, status_cases t, not_successful_and_faulted t⟩
  · have hstep := (step_of_fetch hrun hf hd).trans (exec_of_opcode_hlt hop _)
    obtain rfl := Host.Outcome.next.inj (hstep.symm.trans h)
    exact ⟨s.flags, rfl⟩
  · obtain ⟨rfl, -⟩ := halt_of_step_successful hrun h ht
    exact ht

end Sys2Proof
end

section
/-! PROOFS. Reset and the start of a run (10_state.md section 7, 70_reset_and_hazards.md section 1, 00_scope.md R6). -/

namespace Sys2Proof

open Machine

/-- Settles O9: the reset event is the record of R131's values around the size and the memory it finds. -/
theorem resetSequence : Obligations.ResetSequence :=
  fun _ => ⟨rfl, State.applyReset_reset⟩

/-- Settles O11: at the start of a run cs and ip are 0, so the two fetch addresses are 0 and 1. -/
theorem firstCycleFetchesFlatZero : Obligations.FirstCycleFetchesFlatZero := by
  intro cfg mem
  have h1 : fetchAddr1 (State.resetWith cfg mem) = 0 := rfl
  have h2 : fetchAddr2 (State.resetWith cfg mem) = 1 := rfl
  refine ⟨fun hsize => ?_, fun hsize => step_of_fetch_none rfl (fetch_eq_none_iff.mpr (.inr ?_))⟩
  · rw [fetch_of_lt (h1 ▸ Nat.lt_of_lt_of_le Nat.zero_lt_two hsize) (h2 ▸ hsize), h1, h2]
    rfl
  · exact h2 ▸ Nat.le_of_lt_succ hsize

/-- Settles O12: MEM_INIT is written cell by cell into an empty store, a write changes its own cell only, and the one effect
of an executor that changes memory is the store of movm mode 1. -/
theorem storeLaw : Obligations.StoreLaw := by
  refine ⟨fun cfg memInit => ?_, fun s t a v hw h => ?_, fun s t h hne => ?_, fun s a ha => ?_⟩
  · refine ⟨Memory.ofContents memInit cfg.memSize,
      resetWith_inv (Memory.ofContents_wf memInit _) (Memory.ofContents_lt memInit _), fun a ha => ?_⟩
    exact readCell_eq_some_iff.mpr ⟨ha, Memory.read_ofContents memInit ha⟩
  · have hread := readCell_of_writeCell hw h
    exact ⟨(hread a).trans (if_pos rfl), fun x hx => (hread x).trans (if_neg hx)⟩
  · rcases step_cases s with ⟨r, -, hstep⟩ | ⟨-, -, hstep⟩ | ⟨hrun, b1, b2, i, hf, hd, hstep⟩
    · exact absurd (Host.Outcome.next.inj (hstep.symm.trans h) ▸ rfl) hne
    · exact absurd (Host.Outcome.next.inj (hstep.symm.trans h) ▸ rfl) hne
    · obtain ⟨r1, r2, a, b, rfl, -⟩ := (exec_mem_cases (hstep.symm.trans h)).resolve_left hne
      exact ⟨hrun, b1, b2, r1, r2, hf, hd⟩
  · rw [readCell_of_lt ha, Option.isSome_some]

end Sys2Proof
end

section
/-! PROOFS. What a later access sees of memory (20_memory.md section 5, 42_data_movement.md, 70_reset_and_hazards.md
section 2): a load after a store, a fetch after a store, and a step after loading. -/

namespace Sys2Proof.Machine

theorem fetch_bytes {s : State} {b1 b2 : Byte} (h : fetch s = some (b1, b2)) :
    b1 = Memory.read s.mem (fetchAddr1 s) ∧ b2 = Memory.read s.mem (fetchAddr2 s) := by
  obtain ⟨h1, h2⟩ := fetch_eq_some_iff.mp h
  exact ⟨(readCell_eq_some_iff.mp h1).2.symm, (readCell_eq_some_iff.mp h2).2.symm⟩

theorem decode_of_decodeTableWord {nbits w : Nat} {i : Instr} (h : decodeTableWord nbits w = some i) :
    decode (BitVec.ofNat 8 (w % 2 ^ nbits)) (BitVec.ofNat 8 (w % 2 ^ nbits / 256)) = .ok i := by
  obtain ⟨j, hj⟩ := exists_decode_eq_ok (BitVec.ofNat 8 (w % 2 ^ nbits)) (BitVec.ofNat 8 (w % 2 ^ nbits / 256))
  simp only [decodeTableWord, hj, Option.some.injEq] at h
  exact h ▸ hj

section
variable {s : State}

/-- Both bytes land when their cells exist, and nothing but memory and status is touched. -/
theorem placeFetchBytes_of_lt (h1 : fetchAddr1 s < s.cfg.memSize) (h2 : fetchAddr2 s < s.cfg.memSize) (b1 b2 : Byte) :
    s.placeFetchBytes b1 b2 =
      { s with mem := Memory.write (Memory.write s.mem (fetchAddr1 s) b1) (fetchAddr2 s) b2, status := .running } := by
  have h2' : fetchAddr2 s < (s.loadCell (fetchAddr1 s) b1).cfg.memSize := (State.loadCell_cfg s _ b1).symm ▸ h2
  rw [State.placeFetchBytes, State.loadCell_of_lt h2', State.loadCell_of_lt h1]

/-- The next fetch brings the two bytes placed: the cells are two, so the second does not overwrite the first. -/
theorem fetch_placeFetchBytes (hw : Memory.wf s.mem = true) (h1 : fetchAddr1 s < s.cfg.memSize)
    (h2 : fetchAddr2 s < s.cfg.memSize) (b1 b2 : Byte) : fetch (s.placeFetchBytes b1 b2) = some (b1, b2) := by
  have hw1 := Memory.write_keeps_wf (fetchAddr1 s) b1 hw
  rw [placeFetchBytes_of_lt h1 h2, fetch_eq_some_iff]
  refine ⟨readCell_eq_some_iff.mpr ⟨h1, ?_⟩, readCell_eq_some_iff.mpr ⟨h2, Memory.read_write_self _ b2 hw1⟩⟩
  exact (Memory.read_write_of_ne _ b2 (fetchAddr1_ne_fetchAddr2 s)).trans (Memory.read_write_self _ b1 hw)

end

end Sys2Proof.Machine

namespace Sys2Proof

open Machine

theorem exec_movmLoad_of_read {s : State} {r1 r2 : Nat} {a b : Reg} {v : Byte} (ha : Reg.ofIndex r1 = some a)
    (hb : Reg.ofIndex r2 = some b) (hlt : dataAddr s (s.reg b) < s.cfg.memSize)
    (hv : Memory.read s.mem (dataAddr s (s.reg b)) = v) : exec (.movmLoad r1 r2) s = .next (s.setReg a v) := by
  rw [exec_movmLoad_of_some ha hb, withLoad_of_lt hlt, hv]

/-- Settles O16: a store that does not raise has written the cell at the address that the load reads. -/
theorem loadAfterStoreRoundTrips : Obligations.LoadAfterStoreRoundTrips := by
  intro s t r1 r2 r3 a b c hw ha hb hc h hrun
  rw [exec_movmStore_of_some ha hb] at h
  rcases storeData_cases (s.reg a) (s.reg b) s with ⟨hlt, hstore⟩ | ⟨-, hraise⟩
  · obtain rfl := Host.Outcome.next.inj (hstore.symm.trans h)
    exact exec_movmLoad_of_read (s := { s with mem := _ }) hc ha hlt (Memory.read_write_self _ (s.reg b) hw)
  · obtain rfl := Host.Outcome.next.inj (hraise.symm.trans h)
    exact nomatch hrun

/-- Settles O29: the store has written its cell before the next fetch, which reads the store as it then is. -/
theorem storeIsSeenByTheNextFetch : Obligations.StoreIsSeenByTheNextFetch := by
  intro s b1 b2 r1 r2 a b hrun hw hf hd ha hb hlt
  have hstep := (step_of_fetch hrun hf hd).trans
    ((exec_movmStore_of_some ha hb _).trans (storeData_of_lt (s := s.advanceIp 2) hlt (s.reg b)))
  refine ⟨_, hstep, hrun, fun c1 c2 hfetch => ?_⟩
  obtain ⟨rfl, rfl⟩ := fetch_bytes hfetch
  exact ⟨Memory.read_write hw _ _ _, Memory.read_write hw _ _ _⟩

/-- Settles O31: the word's two bytes are what the next fetch brings, and the machine runs. -/
theorem placedWordIsTheNextInstruction : Obligations.PlacedWordIsTheNextInstruction := by
  intro s nbits w i hw h1 h2 hword
  have hplaced := placeFetchBytes_of_lt h1 h2 (BitVec.ofNat 8 (w % 2 ^ nbits)) (BitVec.ofNat 8 (w % 2 ^ nbits / 256))
  have hfetch := fetch_placeFetchBytes hw h1 h2 (BitVec.ofNat 8 (w % 2 ^ nbits)) (BitVec.ofNat 8 (w % 2 ^ nbits / 256))
  rw [State.withFetchWord]
  refine ⟨_, hplaced, ?_⟩
  rw [step_of_fetch rfl hfetch (decode_of_decodeTableWord hword), hplaced]
  rfl

end Sys2Proof
end

section
/-! PROOFS. Noninterference of the cells a cycle does not reach (20_memory.md R42): two machines that differ in such cells
only do the same cycle, by the shared operations of the executors. -/

namespace Sys2Proof.Machine

/-- The fetch reads its two cells only. -/
theorem fetch_of_mem {s : State} {n : Memory} (h1 : Memory.read n (fetchAddr1 s) = Memory.read s.mem (fetchAddr1 s))
    (h2 : Memory.read n (fetchAddr2 s) = Memory.read s.mem (fetchAddr2 s)) : fetch { s with mem := n } = fetch s := by
  rcases fetch_cases s with ⟨hlt1, hlt2, hf⟩ | ⟨hout, hf⟩
  · rw [hf, ← h1, ← h2]
    exact fetch_of_lt (s := { s with mem := n }) hlt1 hlt2
  · rw [hf]
    exact fetch_eq_none_iff.mpr hout

/-- The second result is the first with another memory, in which every cell agrees with the first one's if it did before,
in the memories `m` and `n`. -/
def AgreeBut (m n : Memory) (o o' : Result) : Prop :=
  ∃ t n', o = .next t ∧ o' = .next { t with mem := n' } ∧
    ∀ x, Memory.read n x = Memory.read m x → Memory.read n' x = Memory.read t.mem x

namespace AgreeBut

section
variable {s : State} {n : Memory}

/-- No memory written. -/
theorem of_mem_eq {t : State} (h : t.mem = s.mem) : AgreeBut s.mem n (.next t) (.next { t with mem := n }) :=
  ⟨t, n, rfl, rfl, fun _ hx => h ▸ hx⟩

theorem of_raise (r : Reason) : AgreeBut s.mem n (raise r s) (raise r { s with mem := n }) :=
  of_mem_eq (t := { s with status := .terminated r }) rfl

/-- The same cell written with the same byte. -/
theorem of_write (hm : Memory.wf s.mem = true) (hn : Memory.wf n = true) (a : Nat) (v : Byte) :
    AgreeBut s.mem n (.next { s with mem := Memory.write s.mem a v }) (.next { s with mem := Memory.write n a v }) := by
  refine ⟨_, _, rfl, rfl, fun x hx => ?_⟩
  rw [Memory.read_write hm, Memory.read_write hn, hx]

theorem of_withReg {r1 : Nat} {f f' : Reg → Result} (h : ∀ a, AgreeBut s.mem n (f a) (f' a)) :
    AgreeBut s.mem n (withReg r1 s f) (withReg r1 { s with mem := n } f') := by
  rcases withReg_cases r1 s f with ⟨a, ha, hf⟩ | ⟨hbad, hf⟩
  · rw [hf, withReg_of_some ha]
    exact h a
  · rw [hf, withReg_of_gt hbad]
    exact of_raise _

theorem of_withRegs {r1 r2 : Nat} {f f' : Reg → Reg → Result} (h : ∀ a b, AgreeBut s.mem n (f a b) (f' a b)) :
    AgreeBut s.mem n (withRegs r1 r2 s f) (withRegs r1 r2 { s with mem := n } f') :=
  of_withReg fun a => of_withReg fun b => h a b

theorem of_withSum {a b : Byte} {f f' : Byte → Result} (h : ∀ v, AgreeBut s.mem n (f v) (f' v)) :
    AgreeBut s.mem n (withSum a b s f) (withSum a b { s with mem := n } f') := by
  rcases withSum_cases a b s f with ⟨hle, hf⟩ | ⟨hgt, hf⟩
  · rw [hf, withSum_of_le hle]
    exact h _
  · rw [hf, withSum_of_gt hgt]
    exact of_raise _

/-- A load reads in both memories the same byte of the data window. -/
theorem of_withLoad {off : Byte} (hoff : Memory.read n (dataAddr s off) = Memory.read s.mem (dataAddr s off))
    {f f' : Byte → Result} (h : ∀ v, AgreeBut s.mem n (f v) (f' v)) :
    AgreeBut s.mem n (withLoad off s f) (withLoad off { s with mem := n } f') := by
  rcases withLoad_cases off s f with ⟨hlt, hf⟩ | ⟨hle, hf⟩
  · rw [hf, withLoad_of_lt (s := { s with mem := n }) hlt, ← hoff]
    exact h _
  · rw [hf, withLoad_of_le (s := { s with mem := n }) hle]
    exact of_raise _

theorem of_storeData (hm : Memory.wf s.mem = true) (hn : Memory.wf n = true) (off v : Byte) :
    AgreeBut s.mem n (storeData off v s) (storeData off v { s with mem := n }) := by
  rcases storeData_cases off v s with ⟨hlt, hf⟩ | ⟨hle, hf⟩
  · rw [hf, storeData_of_lt (s := { s with mem := n }) hlt]
    exact of_write hm hn _ v
  · rw [hf, storeData_of_le (s := { s with mem := n }) hle]
    exact of_raise _

/-- Only the data window can influence an executor. -/
theorem of_exec (hm : Memory.wf s.mem = true) (hn : Memory.wf n = true)
    (hwindow : ∀ off, Memory.read n (dataAddr s off) = Memory.read s.mem (dataAddr s off)) (i : Instr) :
    AgreeBut s.mem n (exec i s) (exec i { s with mem := n }) := by
  cases i with
  | jmpNear | jmpFar | movrImm | xorImm | cmpImm => exact of_withReg fun a => of_mem_eq rfl
  | movrReg | xorReg | cmpReg => exact of_withRegs fun a b => of_mem_eq rfl
  | movmLoad => exact of_withRegs fun a b => of_withLoad (hwindow _) fun v => of_mem_eq rfl
  | movmStore => exact of_withRegs fun a b => of_storeData hm hn _ _
  | addReg => exact of_withRegs fun a b => of_withSum fun v => of_mem_eq rfl
  | addImm => exact of_withReg fun a => of_withSum fun v => of_mem_eq rfl
  | jmpeNear r1 =>
    by_cases hf : s.flags = 0x00#8
    · rw [exec_jmpeNear_of_equal hf, exec_jmpeNear_of_equal (s := { s with mem := n }) hf]
      exact of_withReg fun a => of_mem_eq rfl
    · rw [exec_jmpeNear_of_not_equal hf, exec_jmpeNear_of_not_equal (s := { s with mem := n }) hf]
      exact of_mem_eq rfl
  | jmpeFar r1 r2 =>
    by_cases hf : s.flags = 0x00#8
    · rw [exec_jmpeFar_of_equal hf, exec_jmpeFar_of_equal (s := { s with mem := n }) hf]
      exact of_withRegs fun a b => of_mem_eq rfl
    · rw [exec_jmpeFar_of_not_equal hf, exec_jmpeFar_of_not_equal (s := { s with mem := n }) hf]
      exact of_mem_eq rfl
  | hlt | hlt2 => exact of_raise _

/-- Only the two fetched cells and the data window can influence a step. -/
theorem of_step (hm : Memory.wf s.mem = true) (hn : Memory.wf n = true)
    (h1 : Memory.read n (fetchAddr1 s) = Memory.read s.mem (fetchAddr1 s))
    (h2 : Memory.read n (fetchAddr2 s) = Memory.read s.mem (fetchAddr2 s))
    (hwindow : ∀ off, Memory.read n (dataAddr s off) = Memory.read s.mem (dataAddr s off)) :
    AgreeBut s.mem n (step s) (step { s with mem := n }) := by
  rcases step_cases s with ⟨r, hs, hstep⟩ | ⟨hs, hf, hstep⟩ | ⟨hs, b1, b2, i, hf, hd, hstep⟩
  · rw [hstep, step_of_terminated (s := { s with mem := n }) hs]
    exact of_mem_eq rfl
  · rw [hstep, step_of_fetch_none (s := { s with mem := n }) hs ((fetch_of_mem h1 h2).trans hf)]
    exact of_mem_eq (t := { s with status := .terminated .outOfBounds }) rfl
  · rw [hstep, step_of_fetch (s := { s with mem := n }) hs ((fetch_of_mem h1 h2).trans hf) hd]
    exact of_exec (s := s.advanceIp i.length) hm hn hwindow i

end

end AgreeBut

end Sys2Proof.Machine

namespace Sys2Proof

open Machine

/-- Settles O30: the step with the other memory agrees with the first one's in all but the cells that differed. -/
theorem cellsNotReachedDoNotMatter : Obligations.CellsNotReachedDoNotMatter := by
  intro s t m hs hm h1 h2 hwindow h
  obtain ⟨u, m', hu, hstep, hcells⟩ := AgreeBut.of_step hs hm h1 h2 hwindow
  obtain rfl := Host.Outcome.next.inj (hu.symm.trans h)
  exact ⟨m', hstep, hcells⟩

end Sys2Proof
end
